-- ==== Sys2Proof/Word.lean ====
section
/-! DEFINITION. The byte, the one word type of the CORE (spec/00_scope.md R7). -/

namespace Sys2Proof

/-- A byte: an unsigned integer in 0..255, bit 0 least significant (R7). Registers, memory cells, opcodes,
operands and output items are all bytes. -/
abbrev Byte := BitVec 8

end Sys2Proof
end

