-- ==== Sys2Proof/Config.lean ====
section
/-! DEFINITION. The parameters the CORE takes (spec/00_scope.md R6), and the values the spec leaves free.
The values THIS machine takes for the parameters stand in Sys2Proof/Machine/Params.lean. -/

namespace Sys2Proof

/-- The names of the thirteen rows of the opcode map (R83). -/
inductive Mnemonic where
  | hlt | ldi | prn | add | mul | cmp | push | pop | call | ret | jmp | jeq | jne
deriving DecidableEq, Repr

/-- The three operations of the alu_8bit block, a closed set (R110, R150). The error
`UnsupportedALUOperation` of R154 cannot be expressed with it, as that rule says. -/
inductive AluOp where
  | add | mul | cmp
deriving DecidableEq, Repr

/-- The parameter `opcodeMap` (R6, R83, decision D1): the opcode byte of each instruction. -/
abbrev OpcodeMap := Mnemonic → Byte

/-- The parameter `unsetPolicy` (R6, R196, decision D5): how JEQ and JNE read an unset flag. -/
inductive UnsetPolicy where
  /-- UNSET reads as FALSE. -/
  | asFalse
  /-- Reading UNSET raises the model-only `UnsetFlag`. -/
  | fault
deriving DecidableEq, Repr

/-- The parameters of R6 that an implementation chooses. -/
structure Config where
  /-- Byte value of each opcode (D1). -/
  opcodeMap : OpcodeMap
  /-- Values of R0..R6 at reset; `none` leaves them unwritten (D4). -/
  gprInit : Option (Fin 7 → Byte)
  /-- How JEQ and JNE read an unset flag (D5). -/
  unsetPolicy : UnsetPolicy

/-- FREE VALUE, DESIGN CHOICE (log 17): the `result` output of the ALU for CMP. R150 gives the output and R153
says no rule uses it; no value is stated. -/
opaque Config.aluUnusedResult : Byte → Byte → Byte

/-- FREE VALUE, DESIGN CHOICE (log 17): the `eq` output of the ALU for ADD and MUL. R150 gives the output; no rule
states it or uses it. -/
opaque Config.aluUnusedEq : AluOp → Byte → Byte → Bool

end Sys2Proof
end

