-- ==== Sys2Proof/Syntax.lean ====
section
/-! DEFINITION. The instructions of the CORE: one constructor per row of spec/opcode_table.json
(spec/30_encoding.md R81, R83). -/

namespace Sys2Proof

/-- The thirteen instructions, a closed set (R1, R87). Each operand is the whole operand byte (R82): decoding
checks none of them (R86), so a register operand here is any byte. -/
inductive Instr where
  /-- `HLT`, format N (R130). -/
  | hlt
  /-- `LDI r, imm`, format RI (R131). -/
  | ldi (r imm : Byte)
  /-- `PRN r`, format R (R132). -/
  | prn (r : Byte)
  /-- `ADD a, b`, format RR (R156). -/
  | add (a b : Byte)
  /-- `MUL a, b`, format RR (R157). -/
  | mul (a b : Byte)
  /-- `CMP a, b`, format RR (R158). -/
  | cmp (a b : Byte)
  /-- `PUSH r`, format R (R171). -/
  | push (r : Byte)
  /-- `POP r`, format R (R172). -/
  | pop (r : Byte)
  /-- `CALL r`, format R (R191). -/
  | call (r : Byte)
  /-- `RET`, format N (R192). -/
  | ret
  /-- `JMP r`, format R (R193). -/
  | jmp (r : Byte)
  /-- `JEQ r`, format R (R194). -/
  | jeq (r : Byte)
  /-- `JNE r`, format R (R195). -/
  | jne (r : Byte)
deriving DecidableEq, Repr

end Sys2Proof
end

