-- ==== Sys2Proof/Decode.lean ====
section
/-! DEFINITION. The opcode map, the dispatch table, the decoder, the encoder and the assembly text
(spec/30_encoding.md). -/

namespace Sys2Proof

/-- The default `opcodeMap` of R83, the LS-8 assignment. PRESUMED (log 1), unsafe: the byte values are from general
knowledge and in no source (D1). -/
def ls8OpcodeMap : OpcodeMap
  | .hlt => 0x01
  | .ldi => 0x82
  | .prn => 0x47
  | .add => 0xA0
  | .mul => 0xA2
  | .cmp => 0xA7
  | .push => 0x45
  | .pop => 0x46
  | .call => 0x50
  | .ret => 0x11
  | .jmp => 0x54
  | .jeq => 0x55
  | .jne => 0x56

/-- The rows of R83, in the table's order. -/
def opcodeRows : List Mnemonic :=
  [.hlt, .ldi, .prn, .add, .mul, .cmp, .push, .pop, .call, .ret, .jmp, .jeq, .jne]

/-- The four formats of R81. -/
inductive Format where
  /-- No operand: 1 byte. -/
  | n
  /-- One register: 2 bytes. -/
  | r
  /-- Two registers: 3 bytes. -/
  | rr
  /-- Register and immediate: 3 bytes. -/
  | ri
deriving DecidableEq, Repr

/-- The format of each row (R81, R83). It comes from the row, never from bits of the opcode (R84). -/
def mnemonicFormat : Mnemonic → Format
  | .hlt => .n
  | .ldi => .ri
  | .prn => .r
  | .add => .rr
  | .mul => .rr
  | .cmp => .rr
  | .push => .r
  | .pop => .r
  | .call => .r
  | .ret => .n
  | .jmp => .r
  | .jeq => .r
  | .jne => .r

/-- Width in bytes: 1 plus the operand count (R80, R81). -/
def formatWidth : Format → Nat
  | .n => 1
  | .r => 2
  | .rr => 3
  | .ri => 3

/-- The width of a row of the opcode map. -/
def mnemonicWidth (k : Mnemonic) : Nat := formatWidth (mnemonicFormat k)

/-- The decoder_dispatch block (R88): the row whose opcode is `op`, or `none` for `Unknown` (R85). -/
def lookupOpcode (m : OpcodeMap) (op : Byte) : Option Mnemonic :=
  opcodeRows.find? fun k => m k == op

/-- The instruction of a row with its operand bytes b1 and b2 (R81, R105); a format's missing operands are not
looked at. The first listed operand is b1, the second b2 (D16, log 25). -/
def buildInstr (k : Mnemonic) (b1 b2 : Byte) : Instr :=
  match k with
  | .hlt => .hlt
  | .ldi => .ldi b1 b2
  | .prn => .prn b1
  | .add => .add b1 b2
  | .mul => .mul b1 b2
  | .cmp => .cmp b1 b2
  | .push => .push b1
  | .pop => .pop b1
  | .call => .call b1
  | .ret => .ret
  | .jmp => .jmp b1
  | .jeq => .jeq b1
  | .jne => .jne b1

/-- Why bytes are no instruction. -/
inductive DecodeError where
  /-- There is no opcode byte. -/
  | noByte
  /-- The first byte is not an opcode (R85). -/
  | unknownOpcode (op : Byte)
  /-- The row's operand bytes are not all there. -/
  | missingOperand (k : Mnemonic)
deriving DecidableEq, Repr

/-- The decoder, total on any bytes: the first instruction of `bs` and the bytes after it (R80, R81, R88). -/
def decode (m : OpcodeMap) : List Byte → Except DecodeError (Instr × List Byte)
  | [] => .error .noByte
  | op :: rest =>
    match lookupOpcode m op with
    | none => .error (.unknownOpcode op)
    | some k =>
      match mnemonicWidth k, rest with
      | 1, rest => .ok (buildInstr k 0 0, rest)
      | 2, b1 :: rest => .ok (buildInstr k b1 0, rest)
      | 3, b1 :: b2 :: rest => .ok (buildInstr k b1 b2, rest)
      | _, _ => .error (.missingOperand k)

/-- The row an instruction belongs to. -/
def instrMnemonic : Instr → Mnemonic
  | .hlt => .hlt
  | .ldi _ _ => .ldi
  | .prn _ => .prn
  | .add _ _ => .add
  | .mul _ _ => .mul
  | .cmp _ _ => .cmp
  | .push _ => .push
  | .pop _ => .pop
  | .call _ => .call
  | .ret => .ret
  | .jmp _ => .jmp
  | .jeq _ => .jeq
  | .jne _ => .jne

/-- The width of an instruction in bytes (R80, R83). -/
def instrWidth (i : Instr) : Nat := mnemonicWidth (instrMnemonic i)

/-- The assembly of one instruction: its opcode byte followed by the operand bytes in the order written (R81, R89). -/
def encode (m : OpcodeMap) : Instr → List Byte
  | .hlt => [m .hlt]
  | .ldi r imm => [m .ldi, r, imm]
  | .prn r => [m .prn, r]
  | .add a b => [m .add, a, b]
  | .mul a b => [m .mul, a, b]
  | .cmp a b => [m .cmp, a, b]
  | .push r => [m .push, r]
  | .pop r => [m .pop, r]
  | .call r => [m .call, r]
  | .ret => [m .ret]
  | .jmp r => [m .jmp, r]
  | .jeq r => [m .jeq, r]
  | .jne r => [m .jne, r]

/-- A register operand as assembly text: `R` and the index in decimal (R9, R89). DESIGN CHOICE (log 24), safe: an
operand 8..255, which names no register, is written the same way, as spec/95_test_vectors.md L2.2 writes `LDI R8,1`. -/
def asmReg (b : Byte) : String := "R" ++ Nat.repr b.toNat

/-- Assembly text of an instruction (R9, R89). -/
def asmText : Instr → String
  | .hlt => "HLT"
  | .ldi r imm => "LDI " ++ asmReg r ++ "," ++ Nat.repr imm.toNat
  | .prn r => "PRN " ++ asmReg r
  | .add a b => "ADD " ++ asmReg a ++ "," ++ asmReg b
  | .mul a b => "MUL " ++ asmReg a ++ "," ++ asmReg b
  | .cmp a b => "CMP " ++ asmReg a ++ "," ++ asmReg b
  | .push r => "PUSH " ++ asmReg r
  | .pop r => "POP " ++ asmReg r
  | .call r => "CALL " ++ asmReg r
  | .ret => "RET"
  | .jmp r => "JMP " ++ asmReg r
  | .jeq r => "JEQ " ++ asmReg r
  | .jne r => "JNE " ++ asmReg r

/-- The bytes of a word numbered as spec/opcode_table.json numbers it: the first byte is bits 7..0. The bits from
`nbits` on are 0. Three bytes are the longest instruction (R80). -/
def tableBytes (nbits w : Nat) : List Byte :=
  [BitVec.ofNat 8 (w % 2 ^ nbits), BitVec.ofNat 8 (w % 2 ^ nbits / 256), BitVec.ofNat 8 (w % 2 ^ nbits / 65536)]

/-- What the decoder reads from such a word under the default opcode map. -/
def decodeTableWord (nbits w : Nat) : Option Instr :=
  match decode ls8OpcodeMap (tableBytes nbits w) with
  | .ok (i, _) => some i
  | .error _ => none

end Sys2Proof
end

