-- ==== Sys2Proof/Machine/Params.lean ====
section
/-! DEFINITION. The values of the parameters of spec/00_scope.md R6 that this machine takes, and the spec's own
defaults. -/

namespace Sys2Proof.Machine

/-- The parameters of the machine this model fixes. `opcodeMap` and `unsetPolicy` are the spec's defaults (log 1,
log 3). `gprInit` departs from the spec's default: DESIGN CHOICE (log 2), unsafe: R0..R6 hold 0 at reset, because
every register of this model holds a value at reset and the spec gives none (D4). -/
def coreConfig : Config where
  opcodeMap := ls8OpcodeMap
  gprInit := some fun _ => 0
  unsetPolicy := .asFalse

/-- The spec's own defaults (R6): as `coreConfig`, but R0..R6 start unwritten and reading one raises the model-only
`UnwrittenRegister` (R37, R231). -/
def specConfig : Config where
  opcodeMap := ls8OpcodeMap
  gprInit := none
  unsetPolicy := .asFalse

end Sys2Proof.Machine
end

