-- ==== Sys2Proof/Machine/State.lean ====
section
/-! DEFINITION. The state of the CORE (spec/10_state.md R20, R37, R38; spec/20_memory.md R50, R53), the errors it can
record (spec/60_exceptions.md) and the host-level reasons a step does not exist. -/

namespace Sys2Proof.Machine

/-- The index of a general-purpose register, R0..R7 (R21, R22). -/
abbrev RegIndex := Fin 8

/-- Memory as a list of (address, byte), in the canonical form of `Memory.wf` (Machine/Ops.lean): addresses rising,
none with byte 0. An unlisted address reads 0, the reset content of every cell (R53). -/
abbrev Memory := List Host.Cell

/-- The space an out-of-bounds value was meant for (R221, R224). -/
inductive Space where
  | memory | register | value
deriving DecidableEq, Repr

/-- The closed enumeration of error kinds (R220, R231, D25). -/
inductive ErrorKind where
  | outOfBounds
  | unknownOpcode
  /-- No error of this model has this kind: the ALU's operation input is always one of its three (R110, R154). -/
  | unsupportedALUOperation
  /-- Raised by the load, before the machine exists (R223). -/
  | loadFailure
  /-- Model-only (R231), under `gprInit = none`. -/
  | unwrittenRegister
  /-- Model-only (R231), under `unsetPolicy = fault`. -/
  | unsetFlag
deriving DecidableEq, Repr

/-- An error a step can raise, with what R224 records: the offending value with its space (the bound is the
space's, `spaceBound`), or the opcode, and the PC of the instruction. -/
inductive Error where
  | outOfBounds (space : Space) (value pc : Nat)
  | unknownOpcode (op : Byte) (pc : Nat)
  | unwrittenRegister (i : RegIndex)
  | unsetFlag (pc : Nat)
deriving DecidableEq, Repr

/-- The loop state (R34): RUNNING, HALTED, or FAULTED(e). The last two are terminal. -/
inductive RunState where
  | running
  | halted
  | faulted (e : Error)
deriving DecidableEq, Repr

/-- The comparison flag EQ, tri-state (R33, C7). -/
inductive EqFlag where
  | unset | true | false
deriving DecidableEq, Repr

/-- The architectural state (R20), with the bookkeeping `written` of R37. -/
structure State where
  /-- `x[0..7]`, eight 8-bit registers; entry 7 is the stack pointer (R21, R24). -/
  regs : Vector Byte 8
  /-- The program counter: 0..256, no wraparound, arithmetic on unbounded integers (R7, R28, R30; log 6). -/
  pc : Nat
  /-- The comparison flag (R33). -/
  eq : EqFlag
  /-- The loop state (R34). -/
  run : RunState
  /-- `M[0..255]` (R50). -/
  mem : Memory
  /-- The bytes emitted by PRN, oldest first (R36). -/
  out : List Byte
  /-- `written[0..7]` (R37). -/
  written : Vector Bool 8
deriving DecidableEq, Repr

/-- Why the host sees no next state. An error of the machine is NOT one of these: it is a next state whose `run` is
FAULTED(e) (R106, R226; log 4). -/
inductive Fault where
  /-- Raised by `step` alone, when `run` is HALTED: the machine has no step (R101). Safe: the hardware does nothing
  more (log 5). -/
  | noStepHalted
  /-- Raised by `step` alone, when `run` is FAULTED(e): the machine has no step (R101). Safe (log 5). -/
  | noStepFaulted (e : Error)
deriving DecidableEq, Repr

/-- Why an instruction has no meaning. -/
inductive Refusal where
  /-- An instruction whose meaning is not written yet, raised by an arm of `exec`; safe. No arm of this model
  raises it. -/
  | notModelled (mnemonic : String)
deriving DecidableEq, Repr

/-- Reset, "Machine creation" (R38, R250), under given parameters, with no program loaded (the load is
Machine/HostInterface.lean). With `gprInit = none` the 0 held by R0..R6 is read by no instruction: each such read
raises `UnwrittenRegister` (R37; log 2). -/
def State.resetUnder (cfg : Config) : State :=
  let x : Fin 7 → Byte := cfg.gprInit.getD fun _ => 0
  let w : Bool := cfg.gprInit.isSome
  { regs := #v[x 0, x 1, x 2, x 3, x 4, x 5, x 6, 255]
    pc := 0
    eq := .unset
    run := .running
    mem := []
    out := []
    written := #v[w, w, w, w, w, w, w, Bool.true] }

/-- The machine right after reset (R38, R250, R251): `run` is RUNNING, since execution starts with the empty program
of D20 when nothing is loaded (log 13). -/
def State.reset : State := State.resetUnder coreConfig

end Sys2Proof.Machine
end

