-- ==== Sys2Proof/Machine/Ops.lean ====
section
/-! DEFINITION. The named operations over registers, memory, the program counter, the output and the loop state
(spec/10_state.md, spec/20_memory.md), and raising an error (spec/40_execution_loop.md R106). -/

namespace Sys2Proof.Machine

/-- `wrap8(v)`: `v mod 256` (R7). -/
def wrap8 (v : Nat) : Byte := BitVec.ofNat 8 v

/-! ## Memory -/

/-- The byte at an address: the listed one, or 0 (R53). -/
def Memory.get : Memory → Nat → Byte
  | [], _ => 0
  | (b, v) :: m, a => if a = b then v else Memory.get m a

/-- Put the entry `(a, v)` at its place in rising order, in the place of an entry at `a`. -/
def Memory.insert : Memory → Nat → Byte → Memory
  | [], a, v => [(a, v)]
  | (b, w) :: m, a, v =>
    if a < b then (a, v) :: (b, w) :: m
    else if a = b then (a, v) :: m
    else (b, w) :: Memory.insert m a v

/-- Remove every entry at an address. -/
def Memory.erase (m : Memory) (a : Nat) : Memory := m.filter fun p => p.1 ≠ a

/-- `M[a] <- v` (R52). Writing 0, which an unlisted address reads, removes the entry. -/
def Memory.set (m : Memory) (a : Nat) (v : Byte) : Memory :=
  if v = 0 then m.erase a else m.insert a v

/-- The canonical form: addresses strictly rising, each in 0..255 (R50), none listed with 0. -/
abbrev Memory.wf (m : Memory) : Prop :=
  m.Pairwise (fun p q => p.1 < q.1) ∧ ∀ p ∈ m, p.1 < 256 ∧ p.2 ≠ 0

/-- The state with another memory. -/
def State.setMem (s : State) (m : Memory) : State := { s with mem := m }

/-- `MemRead(addr, 1)` (R51): the byte, or OutOfBounds(memory, addr); never reduced modulo 256 (C2). -/
def State.memRead (s : State) (a : Nat) : Except Error Byte :=
  if a < 256 then .ok (s.mem.get a) else .error (.outOfBounds .memory a s.pc)

/-- `MemWrite(addr, 1, v)` (R52). -/
def State.memWrite (s : State) (a : Nat) (v : Byte) : Except Error State :=
  if a < 256 then .ok (s.setMem (s.mem.set a v)) else .error (.outOfBounds .memory a s.pc)

/-- Place bytes from an address upward; a byte past address 255 has no cell and is dropped. Used by the load (R54),
which hands it no such byte, and by `withFetchWord`. -/
def State.placeBytes (s : State) (a : Nat) : List Byte → State
  | [] => s
  | b :: bs => State.placeBytes (if a < 256 then s.setMem (s.mem.set a b) else s) (a + 1) bs

/-! ## Registers -/

/-- `x[i]` (R8, R26). -/
def State.reg (s : State) (i : RegIndex) : Byte := s.regs[i]

/-- Whether register i has been written (R37). -/
def State.isWritten (s : State) (i : RegIndex) : Bool := s.written[i]

/-- `x[i] <- v` (R8, R26); it marks register i written (R37). -/
def State.setReg (s : State) (i : RegIndex) (v : Byte) : State :=
  { s with regs := s.regs.set i.val v i.isLt, written := s.written.set i.val Bool.true i.isLt }

/-- The index of the stack pointer, `SP_INDEX` (R6, R24). -/
def spIndex : RegIndex := 7

/-- `sp`, a name for `x[7]` (R8, R24). -/
def State.sp (s : State) : Byte := s.reg spIndex

/-- `dec: sp <- wrap8(sp - 1)`, as byte arithmetic: 0 goes to 255 (R27, D11; log 11). -/
def State.decSp (s : State) : State := s.setReg spIndex (s.sp - 1)

/-- `inc: sp <- wrap8(sp + 1)`, as byte arithmetic: 255 goes to 0 (R27, D11; log 11). -/
def State.incSp (s : State) : State := s.setReg spIndex (s.sp + 1)

/-! ## Program counter -/

/-- `pc <- pc + w`, on unbounded integers: it does not wrap (R7, R30, R32). -/
def State.advance (s : State) (w : Nat) : State := { s with pc := s.pc + w }

/-- `pc <- target`, an absolute byte address (R190). -/
def State.jump (s : State) (target : Byte) : State := { s with pc := target.toNat }

/-! ## Output -/

/-- `emit(v)`: append a byte to the output (R8, R36). -/
def State.emit (s : State) (v : Byte) : State := { s with out := s.out ++ [v] }

/-! ## Loop state -/

/-- `run <- HALTED` (R34, R130). -/
def State.halt (s : State) : State := { s with run := .halted }

/-! ## Errors -/

/-- The bound recorded with an OutOfBounds error: 256 for memory and value, 8 for registers (R224). -/
def spaceBound : Space → Nat
  | .memory => 256
  | .register => 8
  | .value => 256

/-- The kind of an error, its only code (R220, D25). -/
def errorKind : Error → ErrorKind
  | .outOfBounds _ _ _ => .outOfBounds
  | .unknownOpcode _ _ => .unknownOpcode
  | .unwrittenRegister _ => .unwrittenRegister
  | .unsetFlag _ => .unsetFlag

/-- Raising an error, the one exception entry of this machine: `run <- FAULTED(e)` and nothing else (R106, R226).
There is no trap, vector, saved register or return (R227, R228). What the failed instruction leaves in registers,
`pc`, `EQ` and memory is not in the source: no claim reads it (R114, D8; log 4). -/
def State.raise (s : State) (e : Error) : State := { s with run := .faulted e }

/-- The end of an instruction's rule: all its writes, or, when a check failed, only `run <- FAULTED(e)` on the state
before the step (R106). -/
def commit (s : State) : Except Error State → Host.Outcome State Fault Refusal
  | .ok t => .next t
  | .error e => .next (s.raise e)

end Sys2Proof.Machine
end

