-- ==== Sys2Proof/Machine/Flags.lean ====
section
/-! DEFINITION. The comparison flag EQ: what CMP writes and how JEQ and JNE read it (spec/42_alu.md R158,
spec/44_control_transfer.md R196). There is no other flag (R33). -/

namespace Sys2Proof.Machine

/-- The flag value CMP writes for the ALU's `eq` output: never UNSET (R158). -/
def compareFlag : Bool → EqFlag
  | Bool.true => .true
  | Bool.false => .false

/-- `EQ <- v` (R8). -/
def State.setEq (s : State) (v : EqFlag) : State := { s with eq := v }

/-- `flagRead(EQ)` (R196). Under `asFalse`, UNSET reads FALSE (D5, C4; log 3). -/
def State.flagRead (cfg : Config) (s : State) : Except Error Bool :=
  match s.eq with
  | .true => .ok Bool.true
  | .false => .ok Bool.false
  | .unset =>
    match cfg.unsetPolicy with
    | .asFalse => .ok Bool.false
    | .fault => .error (.unsetFlag s.pc)

end Sys2Proof.Machine
end

