-- ==== Sys2Proof/Machine/Operands.lean ====
section
/-! DEFINITION. Register operands (spec/30_encoding.md R82; spec/10_state.md R37). -/

namespace Sys2Proof.Machine

/-- `RegIndex(b)` (R8, R82): the whole byte is compared with the bound, with no mask (D22; log 8). -/
def State.regIndex (s : State) (b : Byte) : Except Error RegIndex :=
  if h : b.toNat < 8 then .ok ⟨b.toNat, h⟩ else .error (.outOfBounds .register b.toNat s.pc)

/-- The model-only check of R231 before an operand register is read: it raises `UnwrittenRegister(i)` only under
`gprInit = none`, so never on the machine this model fixes (log 2). -/
def State.checkWritten (cfg : Config) (s : State) (i : RegIndex) : Except Error Unit :=
  if cfg.gprInit.isNone && !s.isWritten i then .error (.unwrittenRegister i) else .ok ()

/-- One register operand that the rule reads: its index, checked in the order of R225 (7 after 5). -/
def State.readOperand (cfg : Config) (s : State) (b : Byte) : Except Error RegIndex := do
  let i ← s.regIndex b
  s.checkWritten cfg i
  return i

/-- Two register operands that the rule reads: both indices are checked, in the order b1, b2, before either is
checked for being written (R225). -/
def State.readOperands (cfg : Config) (s : State) (b1 b2 : Byte) : Except Error (RegIndex × RegIndex) := do
  let i ← s.regIndex b1
  let j ← s.regIndex b2
  s.checkWritten cfg i
  s.checkWritten cfg j
  return (i, j)

end Sys2Proof.Machine
end

