-- ==== Sys2Proof/Machine/Alu.lean ====
section
/-! DEFINITION. The alu_8bit block, and ADD, MUL and CMP (spec/42_alu.md). -/

namespace Sys2Proof.Machine

/-- The `result` output of `alu(op, a, b)` (R150): the sum or the product modulo 256 (R151, R152). CMP's is a free
value that no rule uses (R153; log 17). -/
def aluResult (op : AluOp) (a b : Byte) : Byte :=
  match op with
  | .add => wrap8 (a.toNat + b.toNat)
  | .mul => wrap8 (a.toNat * b.toNat)
  | .cmp => Config.aluUnusedResult a b

/-- The `eq` output of `alu(op, a, b)` (R150): for CMP, equality (R153). ADD's and MUL's is a free value that no rule
uses (log 17). -/
def aluEq (op : AluOp) (a b : Byte) : Bool :=
  match op with
  | .add => Config.aluUnusedEq .add a b
  | .mul => Config.aluUnusedEq .mul a b
  | .cmp => a == b

/-- The shape of ADD and MUL (R156, R157): `x[i] <- alu(op, x[i], x[j]).result`, `pc <- pc + 3`. -/
def aluWriteRule (cfg : Config) (op : AluOp) (a b : Byte) (s : State) : Except Error State := do
  let (i, j) ← s.readOperands cfg a b
  return (s.setReg i (aluResult op (s.reg i) (s.reg j))).advance 3

/-- R156. -/
def addRule (cfg : Config) (a b : Byte) (s : State) : Except Error State := aluWriteRule cfg .add a b s

/-- R157. -/
def mulRule (cfg : Config) (a b : Byte) (s : State) : Except Error State := aluWriteRule cfg .mul a b s

/-- R158: EQ becomes TRUE or FALSE, `pc <- pc + 3`. -/
def cmpRule (cfg : Config) (a b : Byte) (s : State) : Except Error State := do
  let (i, j) ← s.readOperands cfg a b
  return (s.setEq (compareFlag (aluEq .cmp (s.reg i) (s.reg j)))).advance 3

/-- ADD (R156). -/
def execAdd (a b : Byte) (s : State) : Host.Outcome State Fault Refusal := commit s (addRule coreConfig a b s)

/-- MUL (R157). -/
def execMul (a b : Byte) (s : State) : Host.Outcome State Fault Refusal := commit s (mulRule coreConfig a b s)

/-- CMP (R158). -/
def execCmp (a b : Byte) (s : State) : Host.Outcome State Fault Refusal := commit s (cmpRule coreConfig a b s)

end Sys2Proof.Machine
end

