-- ==== Sys2Proof/Machine/Control.lean ====
section
/-! DEFINITION. CALL, RET, JMP, JEQ and JNE (spec/44_control_transfer.md). -/

namespace Sys2Proof.Machine

/-- R191, in the order written. The checks are in the order of R225: the register index, the return address, the
written check. A return address of 256 raises OutOfBounds(value, 256) (D9; log 9). CALL R7 jumps to the
decremented SP (D10; log 10). -/
def callRule (cfg : Config) (r : Byte) (s : State) : Except Error State := do
  let i ← s.regIndex r
  let ret := s.pc + 2
  if ret > 255 then .error (.outOfBounds .value ret s.pc)
  s.checkWritten cfg i
  let d := s.decSp
  let t ← d.memWrite d.sp.toNat (wrap8 ret)
  return t.jump (t.reg i)

/-- R192: the byte at SP is the new pc, then SP is incremented. -/
def retRule (_cfg : Config) (s : State) : Except Error State := do
  let v ← s.memRead s.sp.toNat
  return (s.jump v).incSp

/-- R193: `pc <- x[i]`; also the taken path of JEQ and JNE. -/
def jumpRule (cfg : Config) (r : Byte) (s : State) : Except Error State := do
  let i ← s.readOperand cfg r
  return s.jump (s.reg i)

/-- R193. -/
def jmpRule (cfg : Config) (r : Byte) (s : State) : Except Error State := jumpRule cfg r s

/-- The shape of JEQ and JNE (R194, R195): jump when the flag reads as wanted, else `pc <- pc + 2` with the register
operand unchecked (D7; log 8). -/
def branchRule (cfg : Config) (want : Bool) (r : Byte) (s : State) : Except Error State := do
  let f ← s.flagRead cfg
  if f = want then jumpRule cfg r s else return s.advance 2

/-- R194. -/
def jeqRule (cfg : Config) (r : Byte) (s : State) : Except Error State := branchRule cfg Bool.true r s

/-- R195. -/
def jneRule (cfg : Config) (r : Byte) (s : State) : Except Error State := branchRule cfg Bool.false r s

/-- CALL (R191). -/
def execCall (r : Byte) (s : State) : Host.Outcome State Fault Refusal := commit s (callRule coreConfig r s)

/-- RET (R192). -/
def execRet (s : State) : Host.Outcome State Fault Refusal := commit s (retRule coreConfig s)

/-- JMP (R193). -/
def execJmp (r : Byte) (s : State) : Host.Outcome State Fault Refusal := commit s (jmpRule coreConfig r s)

/-- JEQ (R194). -/
def execJeq (r : Byte) (s : State) : Host.Outcome State Fault Refusal := commit s (jeqRule coreConfig r s)

/-- JNE (R195). -/
def execJne (r : Byte) (s : State) : Host.Outcome State Fault Refusal := commit s (jneRule coreConfig r s)

end Sys2Proof.Machine
end

