-- ==== Sys2Proof/Machine/HaltLoadOutput.lean ====
section
/-! DEFINITION. HLT, LDI and PRN (spec/41_halt_load_output.md). Each rule takes the parameters of R6; the `exec`
definition beside it is the rule on the machine this model fixes. -/

namespace Sys2Proof.Machine

/-- R130: `run <- HALTED`, `pc <- pc + 1`. -/
def hltRule (_cfg : Config) (s : State) : Except Error State :=
  .ok (s.halt.advance 1)

/-- R131: `x[i] <- imm`, `pc <- pc + 3`. -/
def ldiRule (_cfg : Config) (r imm : Byte) (s : State) : Except Error State := do
  let i ← s.regIndex r
  return (s.setReg i imm).advance 3

/-- R132: `emit(x[i])`, `pc <- pc + 2`. -/
def prnRule (cfg : Config) (r : Byte) (s : State) : Except Error State := do
  let i ← s.readOperand cfg r
  return (s.emit (s.reg i)).advance 2

/-- HLT (R130). -/
def execHlt (s : State) : Host.Outcome State Fault Refusal := commit s (hltRule coreConfig s)

/-- LDI (R131). -/
def execLdi (r imm : Byte) (s : State) : Host.Outcome State Fault Refusal := commit s (ldiRule coreConfig r imm s)

/-- PRN (R132). -/
def execPrn (r : Byte) (s : State) : Host.Outcome State Fault Refusal := commit s (prnRule coreConfig r s)

end Sys2Proof.Machine
end

