-- ==== Sys2Proof/Machine/Stack.lean ====
section
/-! DEFINITION. PUSH and POP (spec/43_stack.md). -/

namespace Sys2Proof.Machine

/-- R171, in the order written: SP is decremented, then `x[i]` is read and stored at the new SP, so PUSH R7 stores
the decremented SP (D10; log 10). -/
def pushRule (cfg : Config) (r : Byte) (s : State) : Except Error State := do
  let i ← s.readOperand cfg r
  let d := s.decSp
  let t ← d.memWrite d.sp.toNat (d.reg i)
  return t.advance 2

/-- R172, in the order written: the byte at SP goes to `x[i]`, then `x[7]` is read again and incremented, so POP R7
leaves the popped byte plus 1 (D10; log 10). The operand register is not read. -/
def popRule (_cfg : Config) (r : Byte) (s : State) : Except Error State := do
  let i ← s.regIndex r
  let v ← s.memRead s.sp.toNat
  return (s.setReg i v).incSp.advance 2

/-- PUSH (R171). -/
def execPush (r : Byte) (s : State) : Host.Outcome State Fault Refusal := commit s (pushRule coreConfig r s)

/-- POP (R172). -/
def execPop (r : Byte) (s : State) : Host.Outcome State Fault Refusal := commit s (popRule coreConfig r s)

end Sys2Proof.Machine
end

