-- ==== Sys2Proof/Machine/Loop.lean ====
section
/-! DEFINITION. The fetch_unit and the instruction_execution_loop (spec/40_execution_loop.md R100-R107, R111). -/

namespace Sys2Proof.Machine

/-- `fetch_opcode(pc)` (R102, R111): a pc outside 0..255 raises OutOfBounds(memory, pc). -/
def State.fetchOpcode (s : State) : Except Error Byte := s.memRead s.pc

/-- `fetch_operands(pc, width)` (R104, R111): b1 when the width is 2 or more, then b2 when it is 3, every operand
byte of the format before the rule runs (D6; log 7). A byte the format does not have is given as 0 and looked at by
nothing. -/
def State.fetchOperands (s : State) (w : Nat) : Except Error (Byte × Byte) := do
  let b1 ← if w ≥ 2 then s.memRead (s.pc + 1) else .ok 0
  let b2 ← if w ≥ 3 then s.memRead (s.pc + 2) else .ok 0
  return (b1, b2)

/-- Fetch and decode, steps 1 to 4 of R100, in the order of R107. -/
def State.fetch (m : OpcodeMap) (s : State) : Except Error Instr := do
  let op ← s.fetchOpcode
  match lookupOpcode m op with
  | none => .error (.unknownOpcode op s.pc)
  | some k =>
    let (b1, b2) ← s.fetchOperands (mnemonicWidth k)
    return buildInstr k b1 b2

/-- One step of the loop (R107), for a dispatch `ex` of decoded instructions. A machine that is not RUNNING has no
step (R101); a fetch that raises commits only the error (R106). -/
def stepWith (m : OpcodeMap) (ex : Instr → State → Host.Outcome State Fault Refusal) (s : State) :
    Host.Outcome State Fault Refusal :=
  match s.run with
  | .halted => .fault .noStepHalted
  | .faulted e => .fault (.noStepFaulted e)
  | .running =>
    match s.fetch m with
    | .error e => .next (s.raise e)
    | .ok i => ex i s

end Sys2Proof.Machine
end

