-- ==== Sys2Proof/Machine/Step.lean ====
section
/-! DEFINITION. One architectural step of the machine this model fixes (spec/40_execution_loop.md R107). -/

namespace Sys2Proof.Machine

/-- One step: the complete execution of one instruction (R3, R107). -/
def step (s : State) : Host.Outcome State Fault Refusal := stepWith coreConfig.opcodeMap exec s

/-- The state with an instruction, given as a word numbered as spec/opcode_table.json numbers it, stored where the
next step fetches: its three bytes (the longest instruction) at `pc`, `pc + 1`, `pc + 2`, as far as those cells
exist. It stands for the host's load (R54; log 13). -/
def State.withFetchWord (s : State) (nbits w : Nat) : State := s.placeBytes s.pc (tableBytes nbits w)

end Sys2Proof.Machine
end

