-- ==== Sys2Proof/Machine/Parameters.lean ====
section
/-! DEFINITION. The CORE under any values of its parameters (spec/00_scope.md R6): the same rules, with `opcodeMap`,
`gprInit` and `unsetPolicy` given. `step` is this machine under `coreConfig`
(Sys2Proof/Laws/Ops.lean proves it). -/

namespace Sys2Proof.Machine

/-- The rule of each instruction under given parameters (R105). -/
def ruleOf (cfg : Config) (i : Instr) (s : State) : Except Error State :=
  match i with
  | .hlt => hltRule cfg s
  | .ldi r imm => ldiRule cfg r imm s
  | .prn r => prnRule cfg r s
  | .add a b => addRule cfg a b s
  | .mul a b => mulRule cfg a b s
  | .cmp a b => cmpRule cfg a b s
  | .push r => pushRule cfg r s
  | .pop r => popRule cfg r s
  | .call r => callRule cfg r s
  | .ret => retRule cfg s
  | .jmp r => jmpRule cfg r s
  | .jeq r => jeqRule cfg r s
  | .jne r => jneRule cfg r s

/-- `exec` under given parameters. -/
def execUnder (cfg : Config) (i : Instr) (s : State) : Host.Outcome State Fault Refusal :=
  commit s (ruleOf cfg i s)

/-- `step` under given parameters. -/
def stepUnder (cfg : Config) (s : State) : Host.Outcome State Fault Refusal :=
  stepWith cfg.opcodeMap (execUnder cfg) s

end Sys2Proof.Machine
end

