-- ==== Sys2Proof/Machine/HostInterface.lean ====
section
/-! DEFINITION. The machine's boundary with its host: the load, a run, and what a run shows
(spec/20_memory.md R54, spec/40_execution_loop.md R112, R113, spec/60_exceptions.md R223, R230). -/

namespace Sys2Proof.Machine

/-- Why the load refuses (R223); its kind is `ErrorKind.loadFailure`. The machine then has no state and no step. -/
inductive LoadFailure where
  /-- The host cannot supply a byte sequence. -/
  | noSequence
  /-- The sequence has more than 256 bytes (D12; log 14). -/
  | tooLong (n : Nat)
deriving DecidableEq, Repr

/-- The kind of a load failure (R220). -/
def loadFailureKind : LoadFailure → ErrorKind := fun _ => .loadFailure

/-- Reset, then the load of a byte sequence at address 0 upward (R54, R250, R251), under given parameters; `none` is a
host that cannot supply a sequence. -/
def loadUnder (cfg : Config) : Option (List Byte) → Except LoadFailure State
  | none => .error .noSequence
  | some bs =>
    if bs.length ≤ 256 then .ok ((State.resetUnder cfg).placeBytes 0 bs) else .error (.tooLong bs.length)

/-- The load on the machine this model fixes. -/
def load (prog : Option (List Byte)) : Except LoadFailure State := loadUnder coreConfig prog

/-- A run under fuel (R113, D24): at most `k` steps, ended by a state with no step. Fuel is the model's; running out of
it is no end of the run. -/
def runUnder (cfg : Config) : Nat → State → State
  | 0, s => s
  | k + 1, s =>
    match stepUnder cfg s with
    | .next t => runUnder cfg k t
    | .fault _ => s
    | .refused _ => s

/-- The exit status the host sees: zero against non-zero; no particular non-zero value is given (R230, D13; log 16). -/
inductive ExitStatus where
  | zero | nonZero
deriving DecidableEq, Repr

/-- The exit status of an ended run: 0 on HALTED, non-zero on FAULTED(e) (R230). -/
def exitStatus : RunState → Option ExitStatus
  | .running => none
  | .halted => some .zero
  | .faulted _ => some .nonZero

/-- What an ended run shows the host (R113). -/
structure RunEnd where
  /-- The bytes PRN emitted, in order. -/
  out : List Byte
  /-- The error, with its record, if the run faulted. -/
  error : Option Error
  /-- The exit status. -/
  status : ExitStatus
deriving DecidableEq, Repr

/-- What the host sees of a state: nothing but the end of a run (R112, R113). -/
def observe (s : State) : Option RunEnd :=
  match s.run with
  | .running => none
  | .halted => some { out := s.out, error := none, status := .zero }
  | .faulted e => some { out := s.out, error := some e, status := .nonZero }

end Sys2Proof.Machine
end

