-- ==== Sys2Proof/WellFormed.lean ====
section
/-! DEFINITION. When an instruction is well formed: every register operand names a register (spec/10_state.md R22).
An ill-formed instruction still decodes (R86) and still has a meaning: it raises OutOfBounds(register, b) where its
rule uses the operand (R82), and a JEQ or JNE that does not jump runs on (D7). -/

namespace Sys2Proof

/-- A register operand byte is valid when it is in 0..7 (R22); the whole byte is compared (D22). -/
abbrev RegOperandValid (b : Byte) : Prop := b.toNat < 8

/-- The register operands of an instruction, in the order b1, b2 (R81). -/
def Instr.regOperands : Instr → List Byte
  | .hlt => []
  | .ldi r _ => [r]
  | .prn r => [r]
  | .add a b => [a, b]
  | .mul a b => [a, b]
  | .cmp a b => [a, b]
  | .push r => [r]
  | .pop r => [r]
  | .call r => [r]
  | .ret => []
  | .jmp r => [r]
  | .jeq r => [r]
  | .jne r => [r]

/-- Every register operand is one of R0..R7, as assembly text writes them (R9, R22). -/
abbrev Instr.WellFormed (i : Instr) : Prop := ∀ b ∈ i.regOperands, RegOperandValid b

end Sys2Proof
end

