-- ==== Sys2Proof/Safety.lean ====
section
/-! DEFINITION. What counts as a safe run, and the words the claims are written in. -/

namespace Sys2Proof.Machine

/-! ## Safety -/

/-- The state carries no fatal error (R34, R220). -/
abbrev State.NotFaulted (s : State) : Prop := ∀ e, s.run ≠ .faulted e

/-- A step is safe when it answers a next state that carries no error. -/
def SafeStep (s : State) : Prop := ∃ t, step s = .next t ∧ t.NotFaulted

/-- What every state a run reaches has: the PC is in 0..256 (R30), memory is in its canonical form (R50), and the stack
pointer has been written (R37). -/
abbrev State.Inv (s : State) : Prop := s.pc ≤ 256 ∧ s.mem.wf ∧ s.isWritten spIndex = Bool.true

/-! ## Frames -/

/-- Every address reads as before. -/
def SameMemory (s t : State) : Prop := ∀ a, t.mem.get a = s.mem.get a

/-- Every address but one reads as before. -/
def SameMemoryBut (a : Nat) (s t : State) : Prop := ∀ b, b ≠ a → t.mem.get b = s.mem.get b

/-- Every register holds what it held, and the same registers have been written. -/
def SameRegs (s t : State) : Prop := ∀ j, t.reg j = s.reg j ∧ t.isWritten j = s.isWritten j

/-- So it is for every register but those of a list. -/
def SameRegsBut (l : List RegIndex) (s t : State) : Prop :=
  ∀ j, j ∉ l → t.reg j = s.reg j ∧ t.isWritten j = s.isWritten j

/-! ## Errors -/

/-- An answer is FAULTED(e): a next state whose `run` records the error, with no output added. Nothing is said of the
registers, the PC, EQ or memory after an error, which no claim may read (R114). -/
def Raises (s : State) (e : Error) (o : Host.Outcome State Fault Refusal) : Prop :=
  ∃ t, o = .next t ∧ t.run = .faulted e ∧ t.out = s.out

/-- An instruction whose last byte would lie at 256 or above raises OutOfBounds(memory, 256) at its fetch (R104). -/
def FetchRaisesPastTheEnd (k : Mnemonic) : Prop :=
  ∀ s : State, s.run = .running → s.pc ≤ 255 → s.mem.get s.pc = coreConfig.opcodeMap k →
    256 < s.pc + mnemonicWidth k → Raises s (.outOfBounds .memory 256 s.pc) (step s)

/-- The error of the first operand byte that names no register (R82, R225). -/
def operandError (s : State) : List Byte → Option Error
  | [] => none
  | b :: bs => if b.toNat < 8 then operandError s bs else some (.outOfBounds .register b.toNat s.pc)

/-- The one error an instruction's rule raises, or none, as R221 lists the cases and R225 orders them (D7, D9, D19),
under the parameters of this machine. -/
def ruleError (i : Instr) (s : State) : Option Error :=
  match i with
  | .hlt => none
  | .ldi r _ => operandError s [r]
  | .prn r => operandError s [r]
  | .add a b => operandError s [a, b]
  | .mul a b => operandError s [a, b]
  | .cmp a b => operandError s [a, b]
  | .push r => operandError s [r]
  | .pop r => operandError s [r]
  | .call r =>
    (operandError s [r]).or (if s.pc + 2 ≤ 255 then none else some (.outOfBounds .value (s.pc + 2) s.pc))
  | .ret => none
  | .jmp r => operandError s [r]
  | .jeq r => if s.eq = .true then operandError s [r] else none
  | .jne r => if s.eq = .true then none else operandError s [r]

/-! ## The instruction at the program counter -/

/-- The bytes from `pc` upward that exist, three at most (R80). -/
def State.bytesAtPc (s : State) : List Byte :=
  (([s.pc, s.pc + 1, s.pc + 2].filter fun a => a < 256)).map fun a => s.mem.get a

/-- The next fetch sees the byte `v` at address `a`, wherever in the instruction at `pc` that address lies: as the opcode
(R102), or as the first or the second operand byte (R104). -/
def State.NextFetchSees (t : State) (a : Nat) (v : Byte) : Prop :=
  (t.pc = a → t.fetchOpcode = .ok v) ∧
  (t.pc + 1 = a → t.fetchOperands 2 = .ok (v, 0) ∧
    (t.pc + 2 ≤ 255 → t.fetchOperands 3 = .ok (v, t.mem.get (t.pc + 2)))) ∧
  (t.pc + 2 = a → t.fetchOperands 3 = .ok (t.mem.get (t.pc + 1), v))

/-! ## Who writes and reads which register (R25) -/

/-- The operands whose register the instruction writes. -/
def regsWritten : Instr → List Byte
  | .ldi r _ => [r]
  | .add a _ => [a]
  | .mul a _ => [a]
  | .pop r => [r]
  | .hlt => []
  | .prn _ => []
  | .cmp _ _ => []
  | .push _ => []
  | .call _ => []
  | .ret => []
  | .jmp _ => []
  | .jeq _ => []
  | .jne _ => []

/-- The operands whose register the instruction reads. -/
def regsRead : Instr → List Byte
  | .prn r => [r]
  | .add a b => [a, b]
  | .mul a b => [a, b]
  | .cmp a b => [a, b]
  | .push r => [r]
  | .call r => [r]
  | .jmp r => [r]
  | .jeq r => [r]
  | .jne r => [r]
  | .hlt => []
  | .ldi _ _ => []
  | .pop _ => []
  | .ret => []

/-- The instructions that read and write R7 implicitly. -/
def usesSp : Instr → Bool
  | .push _ => true
  | .pop _ => true
  | .call _ => true
  | .ret => true
  | .hlt => false
  | .ldi _ _ => false
  | .prn _ => false
  | .add _ _ => false
  | .mul _ _ => false
  | .cmp _ _ => false
  | .jmp _ => false
  | .jeq _ => false
  | .jne _ => false

/-- The table of R29: the new pc of an instruction that went from `s` to `t`. `CALL` reads its register after the SP
update (R191), so in `t`. -/
def NextPc (i : Instr) (s t : State) : Prop :=
  match i with
  | .hlt => t.pc = s.pc + 1
  | .ldi _ _ => t.pc = s.pc + 3
  | .prn _ => t.pc = s.pc + 2
  | .add _ _ => t.pc = s.pc + 3
  | .mul _ _ => t.pc = s.pc + 3
  | .cmp _ _ => t.pc = s.pc + 3
  | .push _ => t.pc = s.pc + 2
  | .pop _ => t.pc = s.pc + 2
  | .call r => ∃ k : RegIndex, r.toNat = k.val ∧ t.pc = (t.reg k).toNat
  | .ret => t.pc = (s.mem.get s.sp.toNat).toNat
  | .jmp r => ∃ k : RegIndex, r.toNat = k.val ∧ t.pc = (s.reg k).toNat
  | .jeq r => if s.eq = .true then ∃ k : RegIndex, r.toNat = k.val ∧ t.pc = (s.reg k).toNat else t.pc = s.pc + 2
  | .jne r =>
    if s.flagRead coreConfig = .ok Bool.false then ∃ k : RegIndex, r.toNat = k.val ∧ t.pc = (s.reg k).toNat
    else t.pc = s.pc + 2

/-- Two answers that agree on all a claim may read: the loop state and the output, and, when no error is carried, the
PC and what else `p` asks. -/
def Agree (p : State → State → Prop) (o o' : Host.Outcome State Fault Refusal) : Prop :=
  ∃ t u, o = .next t ∧ o' = .next u ∧ t.run = u.run ∧ t.out = u.out ∧ (t.NotFaulted → t.pc = u.pc ∧ p t u)

end Sys2Proof.Machine
end

