-- ==== Sys2Proof/Certificates/Slice0/Obligations.lean ====
section
/-! DEFINITION. The statements for the provers. Each docstring names the rule of spec/ it formalises and, where a
clause rests on a decision the spec marks as its own, that decision and the log entry. After an error no statement
about an instruction reads registers, the PC, EQ or memory (R114). `exec` and `step` are the machine under `coreConfig`,
so where a statement about them says that a register is read with no error, that is gprInit = some 0 (D4, log 2);
`UnwrittenRegisterPolicy` says what differs under the spec's own default. -/

open Sys2Proof Sys2Proof.Machine

/-! ## Encoding -/

/-- R80, R81, R88 with R83's "Any injective assignment": decoding the assembly of any instruction, whatever bytes
follow, gives that instruction and those bytes. Every operand byte is covered, well-formed or not (R86). -/
def Obligations.DecodeInvertsEncode : Prop :=
  ∀ m : OpcodeMap, Function.Injective m → ∀ (i : Instr) (rest : List Byte),
    decode m (encode m i ++ rest) = .ok (i, rest)

/-- R81, R88, R89: what decodes is the assembly of what it decodes to, so no byte of an encoding is dropped. It needs
no injectivity. -/
def Obligations.EncodeInvertsDecode : Prop :=
  ∀ (m : OpcodeMap) (bs : List Byte) (i : Instr) (rest : List Byte),
    decode m bs = .ok (i, rest) → encode m i ++ rest = bs

/-- A few words of each format, written out from R81 and the default bytes of R83 (general knowledge, D1, log 1). -/
def Obligations.SpecWordsDecode : Prop :=
  decodeTableWord 8 0b00000001 = some .hlt ∧
  decodeTableWord 24 0b00001000_00000000_10000010 = some (.ldi 0 8) ∧
  decodeTableWord 16 0b00000111_01000111 = some (.prn 7) ∧
  decodeTableWord 24 0b00000010_00000001_10100000 = some (.add 1 2) ∧
  decodeTableWord 16 0b00000011_01000101 = some (.push 3) ∧
  decodeTableWord 8 0b00010001 = some .ret ∧
  decodeTableWord 16 0b11111111_01010110 = some (.jne 255) ∧
  decodeTableWord 8 0b00000000 = none

/-- R88: the lookup gives the row whose opcode equals the byte if one exists and Unknown otherwise, for any injective
opcode map; the rows with their formats and widths are R83's. -/
def Obligations.LookupFindsTheRow : Prop :=
  (∀ m : OpcodeMap, Function.Injective m → ∀ (op : Byte) (k : Mnemonic), lookupOpcode m op = some k ↔ m k = op) ∧
  (∀ (m : OpcodeMap) (op : Byte), lookupOpcode m op = none ↔ ∀ k, m k ≠ op) ∧
  opcodeRows.map (fun k => (k, mnemonicFormat k, mnemonicWidth k)) =
    [(.hlt, .n, 1), (.ldi, .ri, 3), (.prn, .r, 2), (.add, .rr, 3), (.mul, .rr, 3), (.cmp, .rr, 3), (.push, .r, 2),
      (.pop, .r, 2), (.call, .r, 2), (.ret, .n, 1), (.jmp, .r, 2), (.jeq, .r, 2), (.jne, .r, 2)]

/-! ## The loop -/

/-- R105, R107: when the bytes at the PC decode to an instruction, a step of a RUNNING machine is exec of that
instruction at that state, and the loop adds nothing around it. -/
def Obligations.StepRunsTheDecodedInstruction : Prop :=
  ∀ (s : State) (i : Instr) (rest : List Byte), s.run = .running →
    decode coreConfig.opcodeMap s.bytesAtPc = .ok (i, rest) → step s = exec i s

/-- R102, R103, R104: when the bytes at the PC decode to nothing, a step of a RUNNING machine raises the error of the
reason: no byte at the PC (the PC does not wrap: D2, log 6), an unknown opcode, or an operand byte that would lie at
256 (D6, log 7). -/
def Obligations.StepRaisesWhatDecodeRefuses : Prop :=
  ∀ s : State, s.run = .running →
    (decode coreConfig.opcodeMap s.bytesAtPc = .error .noByte → Raises s (.outOfBounds .memory s.pc s.pc) (step s)) ∧
    (∀ op, decode coreConfig.opcodeMap s.bytesAtPc = .error (.unknownOpcode op) →
      Raises s (.unknownOpcode op s.pc) (step s)) ∧
    (∀ k, decode coreConfig.opcodeMap s.bytesAtPc = .error (.missingOperand k) →
      Raises s (.outOfBounds .memory 256 s.pc) (step s))

/-- R222: a fetched byte that is no opcode raises UnknownOpcode with the byte and the PC; a program whose first byte is
not a recognized opcode ends with a non-zero status and no output. That the first fetch is at pc 0, so that the error
records PC 0, is D3 (log 13: DESIGN CHOICE), no part of R222. -/
def Obligations.UnknownOpcodeIsRaised : Prop :=
  (∀ (s : State) (op : Byte), s.run = .running → s.pc ≤ 255 → s.mem.get s.pc = op →
    (∀ k, coreConfig.opcodeMap k ≠ op) → Raises s (.unknownOpcode op s.pc) (step s)) ∧
  (∀ (op : Byte) (bs : List Byte), (∀ k, coreConfig.opcodeMap k ≠ op) → (op :: bs).length ≤ 256 →
    ∃ s t, load (some (op :: bs)) = .ok s ∧ step s = .next t ∧
      observe t = some { out := [], error := some (.unknownOpcode op 0), status := .nonZero })

/-- R101: a HALTED or FAULTED machine has no step, and never gets one again, however long it is run. (Which host-level
fault stands for "no step" is the model's: log 5.) -/
def Obligations.NoStepUnlessRunning : Prop :=
  ∀ s : State, s.run ≠ .running → (∀ t, step s ≠ .next t) ∧ ∀ n t, core.run (n + 1) s ≠ .next t

/-- R34: only a RUNNING machine steps; only HLT makes it HALTED; it stays RUNNING exactly when the fetch and the
instruction's rule raise nothing and the instruction is not HLT. What the rule raises is `ruleError` (R221, R225), which
rests on the model's choices too: no UnwrittenRegister arises under gprInit = some 0 (R231, D4, log 2: item 7 of R225 is
absent); an unset flag reads FALSE (R196, D5, log 3: item 4 is absent), so a JNE on UNSET with operand 8..255 stops; a
branch not taken does not check its operand (D7, log 8); a CALL at 254 raises (D9, log 9). What the fetch raises rests
on D2 (log 6) and D6 (log 7), and what an error leaves on D8 (log 4). -/
def Obligations.RunStateChangesAsListed : Prop :=
  ∀ s t : State, step s = .next t →
    s.run = .running ∧
    (t.run = .halted ↔ s.fetch coreConfig.opcodeMap = .ok .hlt) ∧
    (t.run = .running ↔ ∃ i, s.fetch coreConfig.opcodeMap = .ok i ∧ i ≠ .hlt ∧ ruleError i s = none)

/-- R221, R225 (decisions D7, D9, D19; log 8, log 9, log 15): an instruction's rule raises exactly the one error listed
for it, the first that applies, and otherwise none. An unset flag reads FALSE (R196, D5, log 3: DESIGN CHOICE), so a JNE
on UNSET with operand 8..255 raises and a JEQ on UNSET does not. Items 4 and 7 of R225 are absent by this machine's
parameters: no UnsetFlag under asFalse (log 3), no UnwrittenRegister under gprInit = some 0 (log 2). -/
def Obligations.ErrorsRaisedExactlyAsListed : Prop :=
  ∀ (i : Instr) (s : State) (e : Error), s.run = .running →
    ((∃ t, exec i s = .next t ∧ t.run = .faulted e) ↔ ruleError i s = some e)

/-- R82, R101, R106: a RUNNING machine that fetches a well-formed instruction, not a CALL whose return address does not
fit a byte (D9, log 9), makes a safe step. That no other instruction raises an error rests on the model's choices too: a
JEQ or JNE on UNSET reads FALSE and raises no UnsetFlag (R196, D5, log 3); SP wraps, so a POP or RET on an empty stack
and a PUSH or CALL at SP 0 raise nothing (R27, D11, log 11); no UnwrittenRegister arises under gprInit = some 0 (R231,
D4, log 2). -/
def Obligations.WellFormedInstructionStepsSafely : Prop :=
  ∀ (s : State) (i : Instr), s.run = .running → s.fetch coreConfig.opcodeMap = .ok i → i.WellFormed →
    ((∃ r, i = .call r) → s.pc + 2 ≤ 255) → SafeStep s

/-! ## Reset, load and the end of a run -/

/-- R38, R250 under any parameters: what reset leaves. pc = 0 is D3 (log 13), R0..R6 are the parameter gprInit
(D4, log 2) and `run` is RUNNING as execution starts (log 13). -/
def Obligations.ResetLeavesTheListedValues : Prop :=
  ∀ cfg : Config,
    let s := State.resetUnder cfg
    (∀ a, s.mem.get a = 0) ∧ s.sp = 255 ∧ s.pc = 0 ∧ s.eq = .unset ∧ s.run = .running ∧ s.out = [] ∧
    s.isWritten spIndex = Bool.true ∧
    (∀ init, cfg.gprInit = some init → ∀ (i : RegIndex) (h : i.val < 7),
      s.reg i = init ⟨i.val, h⟩ ∧ s.isWritten i = Bool.true) ∧
    (cfg.gprInit = none → ∀ i : RegIndex, i ≠ spIndex → s.isWritten i = Bool.false)

/-- R54 (decisions D12, D20; log 14): byte k goes to M[k], cells beyond keep 0, and everything else is as reset leaves
it (its values that the model chose: log 2, log 13); more than 256 bytes are refused. R223: so is a load for which the
host can supply no byte sequence. -/
def Obligations.LoadPlacesTheProgram : Prop :=
  (∀ bs : List Byte, bs.length ≤ 256 → ∃ s, load (some bs) = .ok s ∧
    (∀ (k : Nat) (h : k < bs.length), s.mem.get k = bs[k]) ∧ (∀ k, bs.length ≤ k → s.mem.get k = 0) ∧
    s.setMem [] = State.reset) ∧
  (∀ bs : List Byte, 256 < bs.length → load (some bs) = .error (.tooLong bs.length)) ∧
  load none = .error .noSequence

/-- R30, R50, R37: the invariant holds at reset, under any parameters. -/
def Obligations.ResetMeetsInv : Prop :=
  State.reset.Inv ∧ ∀ cfg : Config, (State.resetUnder cfg).Inv

/-- R30, R50, R37, R54: the invariant holds of every machine a load makes, under any parameters. -/
def Obligations.LoadedMachineMeetsInv : Prop :=
  ∀ (cfg : Config) (p : Option (List Byte)) (s : State), loadUnder cfg p = .ok s → s.Inv

/-- R30, R50, R37: every step keeps the invariant: the PC stays in 0..256, memory keeps its canonical form and the stack
pointer stays written; on this machine and under any parameters. (That an error leaves the rest of the state is the
model's: log 4.) -/
def Obligations.StepKeepsInv : Prop :=
  (∀ s t : State, s.Inv → step s = .next t → t.Inv) ∧
  (∀ (cfg : Config) (s t : State), s.Inv → stepUnder cfg s = .next t → t.Inv)

/-- R113, R101 (D24): once a run under fuel has ended, more fuel changes nothing, under any parameters. -/
def Obligations.EndOfRunIsStable : Prop :=
  ∀ (cfg : Config) (k : Nat) (s : State), (runUnder cfg k s).run ≠ .running →
    ∀ n, k ≤ n → runUnder cfg n s = runUnder cfg k s

/-- R113, R230 (D13, log 16): while the machine runs the host sees no end; after HLT it sees the output, no error and
status 0; after an error it sees the output so far, that error and a non-zero status. -/
def Obligations.EndOfRunIsObserved : Prop :=
  ∀ s t : State, step s = .next t →
    (observe t = none ↔ t.run = .running) ∧
    (s.fetch coreConfig.opcodeMap = .ok .hlt →
      observe t = some { out := s.out, error := none, status := .zero } ∧ exitStatus t.run = some .zero) ∧
    (∀ e, t.run = .faulted e →
      observe t = some { out := s.out, error := some e, status := .nonZero } ∧ exitStatus t.run = some .nonZero)

/-! ## Memory, the ALU and the stack pointer -/

/-- R51, R52: a read gives M[addr] for an address in 0..255 and raises OutOfBounds(memory, addr) for any other; a write
sets that cell and no other, and changes nothing else, or raises. -/
def Obligations.MemoryReadsAndWrites : Prop :=
  (∀ (s : State) (a : Nat), a ≤ 255 → s.memRead a = .ok (s.mem.get a)) ∧
  (∀ (s : State) (a : Nat), 255 < a → s.memRead a = .error (.outOfBounds .memory a s.pc)) ∧
  (∀ (s : State) (a : Nat) (v : Byte), a ≤ 255 → ∃ t, s.memWrite a v = .ok t ∧ t.memRead a = .ok v ∧
    SameMemoryBut a s t ∧ SameRegs s t ∧ t.pc = s.pc ∧ t.eq = s.eq ∧ t.run = s.run ∧ t.out = s.out) ∧
  (∀ (s : State) (a : Nat) (v : Byte), 255 < a → s.memWrite a v = .error (.outOfBounds .memory a s.pc))

/-- R151, R152: the ALU's sum and product are those of the unsigned operands modulo 256. -/
def Obligations.AluWrapsModulo256 : Prop :=
  ∀ a b : Byte,
    (aluResult .add a b).toNat = (a.toNat + b.toNat) % 256 ∧ (aluResult .mul a b).toNat = (a.toNat * b.toNat) % 256

/-- R27 (D11, log 11): both stack-pointer operations wrap modulo 256 and change only R7, which they mark written (R37),
and no access at SP is out of bounds. -/
def Obligations.StackPointerWraps : Prop :=
  ∀ s : State,
    s.decSp.sp.toNat = (s.sp.toNat + 255) % 256 ∧ s.incSp.sp.toNat = (s.sp.toNat + 1) % 256 ∧
    (∀ t, t = s.decSp ∨ t = s.incSp → SameRegsBut [spIndex] s t ∧ t.isWritten spIndex = Bool.true ∧
      t.pc = s.pc ∧ t.eq = s.eq ∧ t.run = s.run ∧ t.out = s.out ∧ t.mem = s.mem) ∧
    (∃ v, s.memRead s.sp.toNat = .ok v) ∧ ∀ v, ∃ t, s.memWrite s.sp.toNat v = .ok t

/-! ## HLT, LDI, PRN -/

/-- R130: HLT sets HALTED and pc + 1 and leaves every register, EQ, memory and the output; it raises nothing; after it
there is no step and the exit status is 0. -/
def Obligations.HltHalts : Prop :=
  (∀ m, encode m .hlt = [m .hlt]) ∧
  ∀ s : State, ∃ t, exec .hlt s = .next t ∧
    t.run = .halted ∧ t.pc = s.pc + 1 ∧ SameRegs s t ∧ t.eq = s.eq ∧ SameMemory s t ∧ t.out = s.out ∧
    (∀ u, step t ≠ .next u) ∧ exitStatus t.run = some .zero

/-- R131: LDI stores the immediate unchanged in the register, R7 too, marks it written and adds 3 to pc; a byte that
names no register raises. -/
def Obligations.LdiLoadsTheImmediate : Prop :=
  (∀ m r imm, encode m (.ldi r imm) = [m .ldi, r, imm]) ∧
  (∀ (s : State) (r imm : Byte) (i : RegIndex), r.toNat = i.val → ∃ t, exec (.ldi r imm) s = .next t ∧
    t.reg i = imm ∧ t.isWritten i = Bool.true ∧ SameRegsBut [i] s t ∧
    t.pc = s.pc + 3 ∧ t.eq = s.eq ∧ t.run = s.run ∧ t.out = s.out ∧ SameMemory s t) ∧
  (∀ (s : State) (r imm : Byte), 8 ≤ r.toNat →
    Raises s (.outOfBounds .register r.toNat s.pc) (exec (.ldi r imm) s)) ∧
  FetchRaisesPastTheEnd .ldi

/-- R132: PRN emits the register's byte (the output is a byte sequence: D14, log 20) and adds 2 to pc, changing nothing
else; a byte that names no register raises. -/
def Obligations.PrnEmitsTheRegister : Prop :=
  (∀ m r, encode m (.prn r) = [m .prn, r]) ∧
  (∀ (s : State) (r : Byte) (i : RegIndex), r.toNat = i.val → ∃ t, exec (.prn r) s = .next t ∧
    t.out = s.out ++ [s.reg i] ∧
    t.pc = s.pc + 2 ∧ SameRegs s t ∧ t.eq = s.eq ∧ t.run = s.run ∧ SameMemory s t) ∧
  (∀ (s : State) (r : Byte), 8 ≤ r.toNat → Raises s (.outOfBounds .register r.toNat s.pc) (exec (.prn r) s)) ∧
  FetchRaisesPastTheEnd .prn

/-- LDI followed immediately by PRN on the same register emits the loaded value (spec/95_test_vectors.md L1.2). -/
def Obligations.LdiThenPrnEmitsTheValue : Prop :=
  ∀ (s : State) (r v : Byte), r.toNat < 8 → ∃ t u, exec (.ldi r v) s = .next t ∧ exec (.prn r) t = .next u ∧
    u.out = s.out ++ [v]

/-! ## ADD, MUL, CMP -/

/-- R156: ADD writes the sum modulo 256 to the first register, R7 too and both operands the same too, sets no flag and
adds 3 to pc; the first operand byte that names no register raises; with no reset values (gprInit = none, R231; D4, log
2) an unwritten operand raises, and of two the first: that order is item 7 of R225 (D19, log 15), not R156's. -/
def Obligations.AddWritesTheSum : Prop :=
  (∀ m a b, encode m (.add a b) = [m .add, a, b]) ∧
  (∀ (s : State) (a b : Byte) (i j : RegIndex), a.toNat = i.val → b.toNat = j.val →
    ∃ t, exec (.add a b) s = .next t ∧
      (t.reg i).toNat = ((s.reg i).toNat + (s.reg j).toNat) % 256 ∧ t.isWritten i = Bool.true ∧
      SameRegsBut [i] s t ∧ t.pc = s.pc + 3 ∧ t.eq = s.eq ∧ t.run = s.run ∧ t.out = s.out ∧ SameMemory s t) ∧
  (∀ (s : State) (a b : Byte), 8 ≤ a.toNat → Raises s (.outOfBounds .register a.toNat s.pc) (exec (.add a b) s)) ∧
  (∀ (s : State) (a b : Byte), a.toNat < 8 → 8 ≤ b.toNat →
    Raises s (.outOfBounds .register b.toNat s.pc) (exec (.add a b) s)) ∧
  (∀ (cfg : Config) (s : State) (a b : Byte) (i j : RegIndex), cfg.gprInit = none → a.toNat = i.val → b.toNat = j.val →
    (s.isWritten i = Bool.false → Raises s (.unwrittenRegister i) (execUnder cfg (.add a b) s)) ∧
    (s.isWritten i = Bool.true → s.isWritten j = Bool.false →
      Raises s (.unwrittenRegister j) (execUnder cfg (.add a b) s))) ∧
  FetchRaisesPastTheEnd .add

/-- R157: MUL writes the low 8 bits of the product to the first register; all else as ADD, with the order of two
unwritten operands (gprInit = none, R231; D4, log 2) item 7 of R225 (D19, log 15), not R157's. -/
def Obligations.MulWritesTheProduct : Prop :=
  (∀ m a b, encode m (.mul a b) = [m .mul, a, b]) ∧
  (∀ (s : State) (a b : Byte) (i j : RegIndex), a.toNat = i.val → b.toNat = j.val →
    ∃ t, exec (.mul a b) s = .next t ∧
      (t.reg i).toNat = ((s.reg i).toNat * (s.reg j).toNat) % 256 ∧ t.isWritten i = Bool.true ∧
      SameRegsBut [i] s t ∧ t.pc = s.pc + 3 ∧ t.eq = s.eq ∧ t.run = s.run ∧ t.out = s.out ∧ SameMemory s t) ∧
  (∀ (s : State) (a b : Byte), 8 ≤ a.toNat → Raises s (.outOfBounds .register a.toNat s.pc) (exec (.mul a b) s)) ∧
  (∀ (s : State) (a b : Byte), a.toNat < 8 → 8 ≤ b.toNat →
    Raises s (.outOfBounds .register b.toNat s.pc) (exec (.mul a b) s)) ∧
  (∀ (cfg : Config) (s : State) (a b : Byte) (i j : RegIndex), cfg.gprInit = none → a.toNat = i.val → b.toNat = j.val →
    (s.isWritten i = Bool.false → Raises s (.unwrittenRegister i) (execUnder cfg (.mul a b) s)) ∧
    (s.isWritten i = Bool.true → s.isWritten j = Bool.false →
      Raises s (.unwrittenRegister j) (execUnder cfg (.mul a b) s))) ∧
  FetchRaisesPastTheEnd .mul

/-- R158: CMP sets EQ to TRUE when the registers are equal and to FALSE otherwise, changes no register and no memory and
adds 3 to pc; errors as ADD, with the order of two unwritten operands (gprInit = none, R231; D4, log 2) item 7 of R225
(D19, log 15), not R158's. -/
def Obligations.CmpSetsTheFlag : Prop :=
  (∀ m a b, encode m (.cmp a b) = [m .cmp, a, b]) ∧
  (∀ (s : State) (a b : Byte) (i j : RegIndex), a.toNat = i.val → b.toNat = j.val →
    ∃ t, exec (.cmp a b) s = .next t ∧
      ((s.reg i).toNat = (s.reg j).toNat → t.eq = .true) ∧ ((s.reg i).toNat ≠ (s.reg j).toNat → t.eq = .false) ∧
      SameRegs s t ∧ t.pc = s.pc + 3 ∧ t.run = s.run ∧ t.out = s.out ∧ SameMemory s t) ∧
  (∀ (s : State) (a b : Byte), 8 ≤ a.toNat → Raises s (.outOfBounds .register a.toNat s.pc) (exec (.cmp a b) s)) ∧
  (∀ (s : State) (a b : Byte), a.toNat < 8 → 8 ≤ b.toNat →
    Raises s (.outOfBounds .register b.toNat s.pc) (exec (.cmp a b) s)) ∧
  (∀ (cfg : Config) (s : State) (a b : Byte) (i j : RegIndex), cfg.gprInit = none → a.toNat = i.val → b.toNat = j.val →
    (s.isWritten i = Bool.false → Raises s (.unwrittenRegister i) (execUnder cfg (.cmp a b) s)) ∧
    (s.isWritten i = Bool.true → s.isWritten j = Bool.false →
      Raises s (.unwrittenRegister j) (execUnder cfg (.cmp a b) s))) ∧
  FetchRaisesPastTheEnd .cmp

/-! ## PUSH, POP -/

/-- PUSH (43_stack.md): SP is decremented modulo 256 (D11, log 11) and the register's byte is stored at the new SP; PUSH
R7 stores the decremented SP (D10, log 10). Nothing else changes but pc + 2. -/
def Obligations.PushStoresBelow : Prop :=
  (∀ (s : State) (r : Byte) (i : RegIndex), r.toNat = i.val → ∃ t, exec (.push r) s = .next t ∧
    t.sp = wrap8 (s.sp.toNat + 255) ∧ t.isWritten spIndex = Bool.true ∧ SameRegsBut [spIndex] s t ∧
    t.mem.get s.decSp.sp.toNat = (if i = spIndex then wrap8 (s.sp.toNat + 255) else s.reg i) ∧
    SameMemoryBut s.decSp.sp.toNat s t ∧
    t.pc = s.pc + 2 ∧ t.eq = s.eq ∧ t.run = s.run ∧ t.out = s.out) ∧
  (∀ (s : State) (r : Byte), 8 ≤ r.toNat → Raises s (.outOfBounds .register r.toNat s.pc) (exec (.push r) s)) ∧
  FetchRaisesPastTheEnd .push

/-- POP (43_stack.md): the byte at SP goes to the register and SP is incremented modulo 256 (D11, log 11); POP R7 leaves
the popped byte plus 1 (D10, log 10). The popped cell and all memory stay; pc + 2. -/
def Obligations.PopLoadsFromTheTop : Prop :=
  (∀ (s : State) (r : Byte) (i : RegIndex), r.toNat = i.val → ∃ t, exec (.pop r) s = .next t ∧
    (i ≠ spIndex → t.reg i = s.mem.get s.sp.toNat ∧ t.sp = wrap8 (s.sp.toNat + 1)) ∧
    (i = spIndex → t.sp = wrap8 ((s.mem.get s.sp.toNat).toNat + 1)) ∧
    t.isWritten i = Bool.true ∧ t.isWritten spIndex = Bool.true ∧ SameRegsBut [i, spIndex] s t ∧
    SameMemory s t ∧ t.pc = s.pc + 2 ∧ t.eq = s.eq ∧ t.run = s.run ∧ t.out = s.out) ∧
  (∀ (s : State) (r : Byte), 8 ≤ r.toNat → Raises s (.outOfBounds .register r.toNat s.pc) (exec (.pop r) s)) ∧
  FetchRaisesPastTheEnd .pop

/-- R173 (R7 as operand: D10, log 10; SP 0 and 255: D11, log 11): PUSH then POP on the same register restores every
register and SP; the pushed byte stays in memory. -/
def Obligations.PushThenPopRestores : Prop :=
  ∀ (s : State) (r : Byte), r.toNat < 8 → ∃ t u, exec (.push r) s = .next t ∧ exec (.pop r) t = .next u ∧
    (∀ j, u.reg j = s.reg j) ∧ SameMemory t u

/-! ## CALL, RET, JMP, JEQ, JNE -/

/-- CALL (44_control_transfer.md): SP is decremented, the return address pc + 2 is stored at the new SP and pc becomes
the register's byte; CALL R7 jumps to the decremented SP (D10, log 10; D11, log 11). A return address that is no byte
raises OutOfBounds(value, pc + 2) (D9, log 9), after the operand's check. -/
def Obligations.CallStoresTheReturnAddress : Prop :=
  (∀ (s : State) (r : Byte) (i : RegIndex), r.toNat = i.val → s.pc + 2 ≤ 255 → ∃ t, exec (.call r) s = .next t ∧
    t.sp = wrap8 (s.sp.toNat + 255) ∧ t.isWritten spIndex = Bool.true ∧ SameRegsBut [spIndex] s t ∧
    (t.mem.get s.decSp.sp.toNat).toNat = s.pc + 2 ∧ SameMemoryBut s.decSp.sp.toNat s t ∧
    t.pc = (if i = spIndex then wrap8 (s.sp.toNat + 255) else s.reg i).toNat ∧
    t.eq = s.eq ∧ t.run = s.run ∧ t.out = s.out) ∧
  (∀ (s : State) (r : Byte), 8 ≤ r.toNat → Raises s (.outOfBounds .register r.toNat s.pc) (exec (.call r) s)) ∧
  (∀ (s : State) (r : Byte), r.toNat < 8 → 255 < s.pc + 2 →
    Raises s (.outOfBounds .value (s.pc + 2) s.pc) (exec (.call r) s)) ∧
  FetchRaisesPastTheEnd .call

/-- R192: RET loads pc with the byte at SP, whatever put it there, and increments SP modulo 256; nothing else changes
and nothing is raised. -/
def Obligations.RetReturns : Prop :=
  (∀ m, encode m .ret = [m .ret]) ∧
  ∀ s : State, ∃ t, exec .ret s = .next t ∧
    t.pc = (s.mem.get s.sp.toNat).toNat ∧ t.sp = wrap8 (s.sp.toNat + 1) ∧ t.isWritten spIndex = Bool.true ∧
    SameRegsBut [spIndex] s t ∧ SameMemory s t ∧ t.eq = s.eq ∧ t.run = s.run ∧ t.out = s.out

/-- R197: after a CALL, a RET executed with SP and M[SP] as the CALL left them goes to the CALL's pc + 2, with SP as it
was before the CALL (SP 0, where both wrap: D11, log 11). -/
def Obligations.CallThenRetReturns : Prop :=
  ∀ (s t v : State) (r : Byte), exec (.call r) s = .next t → t.NotFaulted →
    v.sp = t.sp → v.mem.get v.sp.toNat = t.mem.get t.sp.toNat →
    ∃ u, exec .ret v = .next u ∧ u.pc = s.pc + 2 ∧ u.sp = s.sp

/-- R193: JMP sets pc to the register's byte and changes nothing else; a byte that names no register raises; with no
reset values (gprInit = none, R231, D4) an unwritten register raises. -/
def Obligations.JmpJumps : Prop :=
  (∀ m r, encode m (.jmp r) = [m .jmp, r]) ∧
  (∀ (s : State) (r : Byte) (i : RegIndex), r.toNat = i.val → ∃ t, exec (.jmp r) s = .next t ∧
    t.pc = (s.reg i).toNat ∧ SameRegs s t ∧ SameMemory s t ∧ t.eq = s.eq ∧ t.run = s.run ∧ t.out = s.out) ∧
  (∀ (s : State) (r : Byte), 8 ≤ r.toNat → Raises s (.outOfBounds .register r.toNat s.pc) (exec (.jmp r) s)) ∧
  (∀ (cfg : Config) (s : State) (r : Byte) (i : RegIndex), cfg.gprInit = none → r.toNat = i.val →
    s.isWritten i = Bool.false → Raises s (.unwrittenRegister i) (execUnder cfg (.jmp r) s)) ∧
  FetchRaisesPastTheEnd .jmp

/-- JEQ (44_control_transfer.md): with EQ = TRUE pc becomes the register's byte; otherwise, an unset flag reading FALSE
(D5, log 3), pc + 2 whatever the operand byte (D7, log 8). The operand is checked only when the jump is taken;
at 255 its byte is missing, taken or not (D6, log 7). -/
def Obligations.JeqJumpsIfEqual : Prop :=
  (∀ (s : State) (r : Byte) (i : RegIndex), s.eq = .true → r.toNat = i.val → ∃ t, exec (.jeq r) s = .next t ∧
    t.pc = (s.reg i).toNat ∧ SameRegs s t ∧ SameMemory s t ∧ t.eq = s.eq ∧ t.run = s.run ∧ t.out = s.out) ∧
  (∀ (s : State) (r : Byte), s.eq ≠ .true → ∃ t, exec (.jeq r) s = .next t ∧
    t.pc = s.pc + 2 ∧ SameRegs s t ∧ SameMemory s t ∧ t.eq = s.eq ∧ t.run = s.run ∧ t.out = s.out) ∧
  (∀ (s : State) (r : Byte), s.eq = .true → 8 ≤ r.toNat →
    Raises s (.outOfBounds .register r.toNat s.pc) (exec (.jeq r) s)) ∧
  FetchRaisesPastTheEnd .jeq

/-- JNE (44_control_transfer.md): with EQ = FALSE, or unset, which reads FALSE (D5, log 3), pc becomes the register's
byte; with EQ = TRUE, pc + 2 whatever the operand byte (D7, log 8). At 255 the operand byte is missing, taken or not
(D6, log 7). -/
def Obligations.JneJumpsIfNotEqual : Prop :=
  (∀ (s : State) (r : Byte) (i : RegIndex), s.eq ≠ .true → r.toNat = i.val → ∃ t, exec (.jne r) s = .next t ∧
    t.pc = (s.reg i).toNat ∧ SameRegs s t ∧ SameMemory s t ∧ t.eq = s.eq ∧ t.run = s.run ∧ t.out = s.out) ∧
  (∀ (s : State) (r : Byte), s.eq = .true → ∃ t, exec (.jne r) s = .next t ∧
    t.pc = s.pc + 2 ∧ SameRegs s t ∧ SameMemory s t ∧ t.eq = s.eq ∧ t.run = s.run ∧ t.out = s.out) ∧
  (∀ (s : State) (r : Byte), s.eq ≠ .true → 8 ≤ r.toNat →
    Raises s (.outOfBounds .register r.toNat s.pc) (exec (.jne r) s)) ∧
  FetchRaisesPastTheEnd .jne

/-! ## The whole machine -/

/-- The table of 10_state.md section 4: how each instruction that raises no error sets pc. CALL R7 is D10 (log 10); how
JEQ and JNE read an unset flag is D5 (log 3); a branch not taken does not check its operand (D7, log 8). -/
def Obligations.PcIsSetAsListed : Prop :=
  ∀ (i : Instr) (s t : State), exec i s = .next t → t.NotFaulted → NextPc i s t

/-- R33: EQ is set only by CMP, which never sets it back to UNSET; every other instruction leaves it; and no instruction
but JEQ and JNE depends on it. -/
def Obligations.FlagSetAndReadAsListed : Prop :=
  (∀ (i : Instr) (s t : State), exec i s = .next t → t.NotFaulted → (∀ a b, i ≠ .cmp a b) → t.eq = s.eq) ∧
  (∀ (a b : Byte) (s t : State), exec (.cmp a b) s = .next t → t.NotFaulted → t.eq ≠ .unset) ∧
  (∀ (i : Instr) (s : State) (v : EqFlag), (∀ r, i ≠ .jeq r) → (∀ r, i ≠ .jne r) →
    Agree (fun t u => SameRegs t u ∧ SameMemory t u ∧ ((∃ a b, i = .cmp a b) → t.eq = u.eq))
      (exec i s) (exec i (s.setEq v)))

/-- R36: the output starts empty; PRN alone adds to it, one byte at the end; no instruction depends on it. -/
def Obligations.OutputGrowsOnlyByPrn : Prop :=
  State.reset.out = [] ∧
  (∀ (i : Instr) (s t : State), exec i s = .next t → (∀ r, i ≠ .prn r) → t.out = s.out) ∧
  (∀ (r : Byte) (s t : State), exec (.prn r) s = .next t → t.NotFaulted →
    ∃ k : RegIndex, r.toNat = k.val ∧ t.out = s.out ++ [s.reg k]) ∧
  (∀ (i : Instr) (s : State) (o : List Byte), ∃ t u, exec i s = .next t ∧ exec i { s with out := o } = .next u ∧
    t.run = u.run ∧ (t.NotFaulted → t.pc = u.pc ∧ t.eq = u.eq ∧ SameRegs t u ∧ SameMemory t u))

/-- R55: the fetch reads at most the three bytes at the PC; only PUSH and CALL write memory, one byte at the new SP
(at SP 0 that is 255: D11, log 11); only POP and RET depend on the data in memory, on the byte at SP. -/
def Obligations.MemoryTouchedAsListed : Prop :=
  (∀ (m : OpcodeMap) (s : State) (mem : Memory),
    (∀ a, s.pc ≤ a → a ≤ s.pc + 2 → mem.get a = s.mem.get a) → (s.setMem mem).fetch m = s.fetch m) ∧
  (∀ (i : Instr) (s t : State), exec i s = .next t → t.NotFaulted →
    SameMemoryBut s.decSp.sp.toNat s t ∧ ((∀ r, i ≠ .push r) → (∀ r, i ≠ .call r) → SameMemory s t)) ∧
  (∀ (i : Instr) (s : State) (mem : Memory),
    ((i = .ret ∨ ∃ r, i = .pop r) → mem.get s.sp.toNat = s.mem.get s.sp.toNat) →
    Agree (fun t u => t.eq = u.eq ∧ SameRegs t u) (exec i s) (exec i (s.setMem mem)))

/-- R25: an instruction changes no register but its written operand and, for PUSH, POP, CALL and RET, R7; and it depends
on no register but its read operands and, for those four, R7. -/
def Obligations.RegistersTouchedAsListed : Prop :=
  (∀ (i : Instr) (s t : State), exec i s = .next t → t.NotFaulted → ∀ j : RegIndex, t.reg j ≠ s.reg j →
    (∃ b ∈ regsWritten i, b.toNat = j.val) ∨ (usesSp i = Bool.true ∧ j = spIndex)) ∧
  (∀ (i : Instr) (s : State) (j : RegIndex) (v : Byte), (∀ b ∈ regsRead i, b.toNat ≠ j.val) →
    (usesSp i = Bool.true → j ≠ spIndex) →
    Agree (fun t u => t.eq = u.eq ∧ SameMemory t u ∧ ∀ k, k ≠ j → t.reg k = u.reg k)
      (exec i s) (exec i (s.setReg j v)))

/-- R66, R254 (D18, log 22): the byte a PUSH or a CALL stores is the byte the very next fetch sees when it fetches that
address, as the opcode or as an operand byte (R102, R104). PUSH R7 and CALL R7 are D10 (log 10); the wrap of SP is D11
(log 11); a CALL whose return address is no byte stores nothing (D9, log 9). -/
def Obligations.StoredByteIsFetchedNext : Prop :=
  (∀ (s : State) (r : Byte) (i : RegIndex), r.toNat = i.val → ∃ t, exec (.push r) s = .next t ∧
    t.pc = s.pc + 2 ∧ t.NextFetchSees s.decSp.sp.toNat (s.decSp.reg i)) ∧
  (∀ (s : State) (r : Byte) (i : RegIndex), r.toNat = i.val → s.pc + 2 ≤ 255 → ∃ t, exec (.call r) s = .next t ∧
    t.pc = (s.decSp.reg i).toNat ∧ t.NextFetchSees s.decSp.sp.toNat (wrap8 (s.pc + 2)))

/-! ## The other values of the parameters -/

/-- R196 (D5, log 3): flagRead under either policy, and JEQ and JNE with an unset flag under `fault`, where UnsetFlag
comes before the operand's check (R225, D19, log 15). -/
def Obligations.UnsetFlagPolicy : Prop :=
  (∀ (cfg : Config) (s : State), s.eq = .true → s.flagRead cfg = .ok Bool.true) ∧
  (∀ (cfg : Config) (s : State), s.eq = .false → s.flagRead cfg = .ok Bool.false) ∧
  (∀ (cfg : Config) (s : State), s.eq = .unset → cfg.unsetPolicy = .asFalse → s.flagRead cfg = .ok Bool.false) ∧
  (∀ (cfg : Config) (s : State) (r : Byte), s.eq = .unset → cfg.unsetPolicy = .fault →
    s.flagRead cfg = .error (.unsetFlag s.pc) ∧
    Raises s (.unsetFlag s.pc) (execUnder cfg (.jeq r) s) ∧ Raises s (.unsetFlag s.pc) (execUnder cfg (.jne r) s))

/-- R231, R37 (D4, log 2): with no reset values, an instruction that reads an unwritten operand register raises
UnwrittenRegister (ADD, MUL and CMP in their own statements), a taken branch too (an unset flag reading FALSE under
asFalse: R196, D5, log 3), but a CALL at 254 raises its return address first (R225, D9, D19; log 9, log 15); with reset
values no instruction of a RUNNING machine raises it. Whatever the reset values, an instruction whose read operands are
all written answers as exec does, and so does a branch not taken, which reads no operand (D7, log 8); for a branch the
flag must read as on this machine. -/
def Obligations.UnwrittenRegisterPolicy : Prop :=
  (∀ (cfg : Config) (s : State) (r : Byte) (i : RegIndex), cfg.gprInit = none → r.toNat = i.val →
    s.isWritten i = Bool.false →
    Raises s (.unwrittenRegister i) (execUnder cfg (.prn r) s) ∧
    Raises s (.unwrittenRegister i) (execUnder cfg (.push r) s) ∧
    Raises s (.unwrittenRegister i) (execUnder cfg (.jmp r) s) ∧
    (s.pc + 2 ≤ 255 → Raises s (.unwrittenRegister i) (execUnder cfg (.call r) s)) ∧
    (255 < s.pc + 2 → Raises s (.outOfBounds .value (s.pc + 2) s.pc) (execUnder cfg (.call r) s)) ∧
    (s.flagRead cfg = .ok Bool.true → Raises s (.unwrittenRegister i) (execUnder cfg (.jeq r) s)) ∧
    (s.flagRead cfg = .ok Bool.false → Raises s (.unwrittenRegister i) (execUnder cfg (.jne r) s))) ∧
  (∀ (cfg : Config) (i : Instr) (s t : State) (j : RegIndex), cfg.gprInit.isSome = Bool.true → s.run = .running →
    execUnder cfg i s = .next t → t.run ≠ .faulted (.unwrittenRegister j)) ∧
  (∀ (cfg : Config) (i : Instr) (s : State),
    (∀ b ∈ regsRead i, ∀ k : RegIndex, b.toNat = k.val → s.isWritten k = Bool.true) →
    ((∃ r, i = .jeq r ∨ i = .jne r) → s.flagRead cfg = s.flagRead coreConfig) → execUnder cfg i s = exec i s) ∧
  (∀ (cfg : Config) (s : State) (r : Byte),
    (s.flagRead cfg = .ok Bool.false → execUnder cfg (.jeq r) s = exec (.jeq r) s) ∧
    (s.flagRead cfg = .ok Bool.true → execUnder cfg (.jne r) s = exec (.jne r) s))
end

