-- ==== Sys2Proof/Laws/Decode.lean ====
section
/-! SUPPORT. The dispatch table and the formats. -/

namespace Sys2Proof

theorem mem_opcodeRows (k : Mnemonic) : k ∈ opcodeRows := by
  cases k <;> decide

/-- What the lookup finds is a row with that opcode. -/
theorem lookupOpcode_some {m : OpcodeMap} {op : Byte} {k : Mnemonic} (h : lookupOpcode m op = some k) :
    m k = op := by
  have := List.find?_some h
  simpa using this

/-- The lookup finds nothing exactly when no row has the opcode. -/
theorem lookupOpcode_none {m : OpcodeMap} {op : Byte} : lookupOpcode m op = none ↔ ∀ k, m k ≠ op := by
  unfold lookupOpcode
  rw [List.find?_eq_none]
  exact ⟨fun h k hk => h k (mem_opcodeRows k) (by simpa using hk), fun h k _ hk => h k (by simpa using hk)⟩

/-- The default map is injective, as R83 asks of any opcodeMap. -/
theorem ls8OpcodeMap_injective : Function.Injective ls8OpcodeMap := by
  intro a b h
  cases a <;> cases b <;> first | rfl | exact absurd h (by decide)

theorem instrMnemonic_buildInstr (k : Mnemonic) (b1 b2 : Byte) : instrMnemonic (buildInstr k b1 b2) = k := by
  cases k <;> rfl

end Sys2Proof
end

