-- ==== Sys2Proof/Laws/State.lean ====
section
/-! SUPPORT. What each update of State leaves in each field: one lemma per field per update. -/

namespace Sys2Proof.Machine

/-! ## setReg -/

@[simp] theorem State.setReg_pc (s : State) (i : RegIndex) (v : Byte) : (s.setReg i v).pc = s.pc := rfl
@[simp] theorem State.setReg_eq (s : State) (i : RegIndex) (v : Byte) : (s.setReg i v).eq = s.eq := rfl
@[simp] theorem State.setReg_run (s : State) (i : RegIndex) (v : Byte) : (s.setReg i v).run = s.run := rfl
@[simp] theorem State.setReg_mem (s : State) (i : RegIndex) (v : Byte) : (s.setReg i v).mem = s.mem := rfl
@[simp] theorem State.setReg_out (s : State) (i : RegIndex) (v : Byte) : (s.setReg i v).out = s.out := rfl

@[simp] theorem State.setReg_reg (s : State) (i : RegIndex) (v : Byte) (j : RegIndex) :
    (s.setReg i v).reg j = if j = i then v else s.reg j := by
  simp only [State.setReg, State.reg, Fin.getElem_fin, Vector.getElem_set, Fin.ext_iff]
  split <;> split <;> first | rfl | omega

@[simp] theorem State.setReg_isWritten (s : State) (i : RegIndex) (v : Byte) (j : RegIndex) :
    (s.setReg i v).isWritten j = if j = i then Bool.true else s.isWritten j := by
  simp only [State.setReg, State.isWritten, Fin.getElem_fin, Vector.getElem_set, Fin.ext_iff]
  split <;> split <;> first | rfl | omega

@[simp] theorem State.setReg_sp (s : State) (i : RegIndex) (v : Byte) :
    (s.setReg i v).sp = if spIndex = i then v else s.sp := s.setReg_reg i v spIndex

/-! ## setMem -/

@[simp] theorem State.setMem_pc (s : State) (m : Memory) : (s.setMem m).pc = s.pc := rfl
@[simp] theorem State.setMem_eq (s : State) (m : Memory) : (s.setMem m).eq = s.eq := rfl
@[simp] theorem State.setMem_run (s : State) (m : Memory) : (s.setMem m).run = s.run := rfl
@[simp] theorem State.setMem_mem (s : State) (m : Memory) : (s.setMem m).mem = m := rfl
@[simp] theorem State.setMem_out (s : State) (m : Memory) : (s.setMem m).out = s.out := rfl
@[simp] theorem State.setMem_reg (s : State) (m : Memory) (j : RegIndex) : (s.setMem m).reg j = s.reg j := rfl
@[simp] theorem State.setMem_isWritten (s : State) (m : Memory) (j : RegIndex) : (s.setMem m).isWritten j = s.isWritten j := rfl
@[simp] theorem State.setMem_sp (s : State) (m : Memory) : (s.setMem m).sp = s.sp := rfl

/-! ## setEq -/

@[simp] theorem State.setEq_pc (s : State) (e : EqFlag) : (s.setEq e).pc = s.pc := rfl
@[simp] theorem State.setEq_eq (s : State) (e : EqFlag) : (s.setEq e).eq = e := rfl
@[simp] theorem State.setEq_run (s : State) (e : EqFlag) : (s.setEq e).run = s.run := rfl
@[simp] theorem State.setEq_mem (s : State) (e : EqFlag) : (s.setEq e).mem = s.mem := rfl
@[simp] theorem State.setEq_out (s : State) (e : EqFlag) : (s.setEq e).out = s.out := rfl
@[simp] theorem State.setEq_reg (s : State) (e : EqFlag) (j : RegIndex) : (s.setEq e).reg j = s.reg j := rfl
@[simp] theorem State.setEq_isWritten (s : State) (e : EqFlag) (j : RegIndex) : (s.setEq e).isWritten j = s.isWritten j := rfl
@[simp] theorem State.setEq_sp (s : State) (e : EqFlag) : (s.setEq e).sp = s.sp := rfl

/-! ## advance -/

@[simp] theorem State.advance_pc (s : State) (w : Nat) : (s.advance w).pc = s.pc + w := rfl
@[simp] theorem State.advance_eq (s : State) (w : Nat) : (s.advance w).eq = s.eq := rfl
@[simp] theorem State.advance_run (s : State) (w : Nat) : (s.advance w).run = s.run := rfl
@[simp] theorem State.advance_mem (s : State) (w : Nat) : (s.advance w).mem = s.mem := rfl
@[simp] theorem State.advance_out (s : State) (w : Nat) : (s.advance w).out = s.out := rfl
@[simp] theorem State.advance_reg (s : State) (w : Nat) (j : RegIndex) : (s.advance w).reg j = s.reg j := rfl
@[simp] theorem State.advance_isWritten (s : State) (w : Nat) (j : RegIndex) : (s.advance w).isWritten j = s.isWritten j := rfl
@[simp] theorem State.advance_sp (s : State) (w : Nat) : (s.advance w).sp = s.sp := rfl

/-! ## jump -/

@[simp] theorem State.jump_pc (s : State) (v : Byte) : (s.jump v).pc = v.toNat := rfl
@[simp] theorem State.jump_eq (s : State) (v : Byte) : (s.jump v).eq = s.eq := rfl
@[simp] theorem State.jump_run (s : State) (v : Byte) : (s.jump v).run = s.run := rfl
@[simp] theorem State.jump_mem (s : State) (v : Byte) : (s.jump v).mem = s.mem := rfl
@[simp] theorem State.jump_out (s : State) (v : Byte) : (s.jump v).out = s.out := rfl
@[simp] theorem State.jump_reg (s : State) (v : Byte) (j : RegIndex) : (s.jump v).reg j = s.reg j := rfl
@[simp] theorem State.jump_isWritten (s : State) (v : Byte) (j : RegIndex) : (s.jump v).isWritten j = s.isWritten j := rfl
@[simp] theorem State.jump_sp (s : State) (v : Byte) : (s.jump v).sp = s.sp := rfl

/-! ## emit -/

@[simp] theorem State.emit_pc (s : State) (v : Byte) : (s.emit v).pc = s.pc := rfl
@[simp] theorem State.emit_eq (s : State) (v : Byte) : (s.emit v).eq = s.eq := rfl
@[simp] theorem State.emit_run (s : State) (v : Byte) : (s.emit v).run = s.run := rfl
@[simp] theorem State.emit_mem (s : State) (v : Byte) : (s.emit v).mem = s.mem := rfl
@[simp] theorem State.emit_out (s : State) (v : Byte) : (s.emit v).out = s.out ++ [v] := rfl
@[simp] theorem State.emit_reg (s : State) (v : Byte) (j : RegIndex) : (s.emit v).reg j = s.reg j := rfl
@[simp] theorem State.emit_isWritten (s : State) (v : Byte) (j : RegIndex) : (s.emit v).isWritten j = s.isWritten j := rfl
@[simp] theorem State.emit_sp (s : State) (v : Byte) : (s.emit v).sp = s.sp := rfl

/-! ## halt -/

@[simp] theorem State.halt_pc (s : State) : (s.halt).pc = s.pc := rfl
@[simp] theorem State.halt_eq (s : State) : (s.halt).eq = s.eq := rfl
@[simp] theorem State.halt_run (s : State) : (s.halt).run = .halted := rfl
@[simp] theorem State.halt_mem (s : State) : (s.halt).mem = s.mem := rfl
@[simp] theorem State.halt_out (s : State) : (s.halt).out = s.out := rfl
@[simp] theorem State.halt_reg (s : State) (j : RegIndex) : (s.halt).reg j = s.reg j := rfl
@[simp] theorem State.halt_isWritten (s : State) (j : RegIndex) : (s.halt).isWritten j = s.isWritten j := rfl
@[simp] theorem State.halt_sp (s : State) : (s.halt).sp = s.sp := rfl

/-! ## raise -/

@[simp] theorem State.raise_pc (s : State) (e : Error) : (s.raise e).pc = s.pc := rfl
@[simp] theorem State.raise_eq (s : State) (e : Error) : (s.raise e).eq = s.eq := rfl
@[simp] theorem State.raise_run (s : State) (e : Error) : (s.raise e).run = .faulted e := rfl
@[simp] theorem State.raise_mem (s : State) (e : Error) : (s.raise e).mem = s.mem := rfl
@[simp] theorem State.raise_out (s : State) (e : Error) : (s.raise e).out = s.out := rfl
@[simp] theorem State.raise_reg (s : State) (e : Error) (j : RegIndex) : (s.raise e).reg j = s.reg j := rfl
@[simp] theorem State.raise_isWritten (s : State) (e : Error) (j : RegIndex) : (s.raise e).isWritten j = s.isWritten j := rfl
@[simp] theorem State.raise_sp (s : State) (e : Error) : (s.raise e).sp = s.sp := rfl

/-! ## decSp -/

@[simp] theorem State.decSp_pc (s : State) : (s.decSp).pc = s.pc := rfl
@[simp] theorem State.decSp_eq (s : State) : (s.decSp).eq = s.eq := rfl
@[simp] theorem State.decSp_run (s : State) : (s.decSp).run = s.run := rfl
@[simp] theorem State.decSp_mem (s : State) : (s.decSp).mem = s.mem := rfl
@[simp] theorem State.decSp_out (s : State) : (s.decSp).out = s.out := rfl

@[simp] theorem State.decSp_reg (s : State) (j : RegIndex) :
    s.decSp.reg j = if j = spIndex then s.sp - 1 else s.reg j := s.setReg_reg spIndex _ j

@[simp] theorem State.decSp_isWritten (s : State) (j : RegIndex) :
    s.decSp.isWritten j = if j = spIndex then Bool.true else s.isWritten j := s.setReg_isWritten spIndex _ j

theorem State.decSp_sp (s : State) : s.decSp.sp = s.sp - 1 := by
  simp [State.decSp]

/-! ## incSp -/

@[simp] theorem State.incSp_pc (s : State) : (s.incSp).pc = s.pc := rfl
@[simp] theorem State.incSp_eq (s : State) : (s.incSp).eq = s.eq := rfl
@[simp] theorem State.incSp_run (s : State) : (s.incSp).run = s.run := rfl
@[simp] theorem State.incSp_mem (s : State) : (s.incSp).mem = s.mem := rfl
@[simp] theorem State.incSp_out (s : State) : (s.incSp).out = s.out := rfl

@[simp] theorem State.incSp_reg (s : State) (j : RegIndex) :
    s.incSp.reg j = if j = spIndex then s.sp + 1 else s.reg j := s.setReg_reg spIndex _ j

@[simp] theorem State.incSp_isWritten (s : State) (j : RegIndex) :
    s.incSp.isWritten j = if j = spIndex then Bool.true else s.isWritten j := s.setReg_isWritten spIndex _ j

theorem State.incSp_sp (s : State) : s.incSp.sp = s.sp + 1 := by
  simp [State.incSp]

end Sys2Proof.Machine
end

