-- ==== Sys2Proof/Laws/Memory.lean ====
section
/-! SUPPORT. Memory: a read after a write, and the canonical form, which every memory operation keeps. -/

namespace Sys2Proof.Machine

@[simp] theorem Memory.get_nil (a : Nat) : Memory.get [] a = 0 := rfl

theorem Memory.get_insert (m : Memory) (a : Nat) (v : Byte) (b : Nat) :
    (m.insert a v).get b = if b = a then v else m.get b := by
  induction m with
  | nil => rfl
  | cons p m ih =>
    obtain ⟨c, w⟩ := p
    by_cases h1 : a < c
    · simp only [Memory.insert, if_pos h1, Memory.get]
    · by_cases h2 : a = c
      · subst h2
        simp only [Memory.insert, if_neg h1, if_true, Memory.get]
        split_ifs <;> rfl
      · simp only [Memory.insert, if_neg h1, if_neg h2, Memory.get, ih]
        split_ifs <;> first | rfl | omega

theorem Memory.get_erase (m : Memory) (a b : Nat) :
    (m.erase a).get b = if b = a then 0 else m.get b := by
  induction m with
  | nil => simp [Memory.erase]
  | cons p m ih =>
    obtain ⟨c, w⟩ := p
    simp only [Memory.erase, List.filter_cons] at ih ⊢
    by_cases hc : c = a
    · subst hc
      simp only [ne_eq, not_true_eq_false, decide_false, Bool.false_eq_true, if_false, ih, Memory.get]
      split_ifs <;> rfl
    · simp only [ne_eq, hc, not_false_eq_true, decide_true, if_true, Memory.get, ih]
      split_ifs <;> first | rfl | omega

/-- A read after a write gives the byte written, and every other address reads as before. -/
@[simp] theorem Memory.get_set (m : Memory) (a : Nat) (v : Byte) (b : Nat) :
    (m.set a v).get b = if b = a then v else m.get b := by
  unfold Memory.set
  split_ifs with hv h <;> simp [get_erase, get_insert, *]

theorem Memory.wf_nil : Memory.wf [] := ⟨List.Pairwise.nil, fun _ h => nomatch h⟩

theorem Memory.mem_insert {m : Memory} {a : Nat} {v : Byte} {p : Host.Cell} (h : p ∈ m.insert a v) :
    p = (a, v) ∨ p ∈ m := by
  induction m with
  | nil => exact .inl (by simpa [Memory.insert] using h)
  | cons q m ih =>
    obtain ⟨c, w⟩ := q
    simp only [Memory.insert] at h
    split_ifs at h
    · simpa using h
    · rcases List.mem_cons.1 h with h | h
      · exact .inl h
      · exact .inr (List.mem_cons_of_mem _ h)
    · rcases List.mem_cons.1 h with h | h
      · exact .inr (h ▸ List.mem_cons_self)
      · exact (ih h).imp_right (List.mem_cons_of_mem _)

theorem Memory.insert_sorted {m : Memory} (h : m.Pairwise fun p q => p.1 < q.1) (a : Nat) (v : Byte) :
    (m.insert a v).Pairwise fun p q => p.1 < q.1 := by
  induction m with
  | nil => simp [Memory.insert]
  | cons p m ih =>
    obtain ⟨c, w⟩ := p
    obtain ⟨hc, hm⟩ := List.pairwise_cons.1 h
    simp only [Memory.insert]
    split_ifs with h1 h2
    · refine List.pairwise_cons.2 ⟨fun q hq => ?_, h⟩
      rcases List.mem_cons.1 hq with rfl | hq
      · exact h1
      · exact lt_trans h1 (hc q hq)
    · exact List.pairwise_cons.2 ⟨h2 ▸ hc, hm⟩
    · refine List.pairwise_cons.2 ⟨fun q hq => ?_, ih hm⟩
      rcases mem_insert hq with rfl | hq
      · exact lt_of_le_of_ne (not_lt.1 h1) (Ne.symm h2)
      · exact hc q hq

/-- A write at an address that exists keeps the canonical form. -/
theorem Memory.wf_set {m : Memory} (h : m.wf) {a : Nat} (ha : a < 256) (v : Byte) : (m.set a v).wf := by
  unfold Memory.set
  split_ifs with hv
  · exact ⟨h.1.filter _, fun p hp => h.2 p (List.mem_filter.1 hp).1⟩
  · refine ⟨insert_sorted h.1 a v, fun p hp => ?_⟩
    rcases mem_insert hp with rfl | hp
    · exact ⟨ha, hv⟩
    · exact h.2 p hp

/-- MemWrite answers a state with the byte written, or the error of R52. -/
theorem State.memWrite_eq (s : State) (a : Nat) (v : Byte) :
    s.memWrite a v =
      if a < 256 then .ok (s.setMem (s.mem.set a v)) else .error (.outOfBounds .memory a s.pc) := rfl

/-- MemWrite keeps the canonical form. -/
theorem State.memWrite_wf {s t : State} {a : Nat} {v : Byte} (h : s.memWrite a v = .ok t) (hw : s.mem.wf) :
    t.mem.wf := by
  unfold State.memWrite at h
  split_ifs at h with ha
  cases h
  exact Memory.wf_set hw ha v

/-- Placing bytes keeps the canonical form. -/
theorem State.placeBytes_wf {s : State} (hw : s.mem.wf) (a : Nat) (bs : List Byte) :
    (s.placeBytes a bs).mem.wf := by
  induction bs generalizing s a with
  | nil => exact hw
  | cons b bs ih =>
    refine ih ?_ (a + 1)
    split_ifs with ha
    · exact Memory.wf_set hw ha b
    · exact hw

/-- Placing bytes changes memory alone. -/
theorem State.placeBytes_eq (s : State) (a : Nat) (bs : List Byte) :
    s.placeBytes a bs = s.setMem (s.placeBytes a bs).mem := by
  induction bs generalizing s a with
  | nil => rfl
  | cons b bs ih =>
    simp only [State.placeBytes]
    rw [ih]
    split_ifs <;> rfl

/-- What an address reads after bytes were placed: the byte placed there, if any, else what it read before. -/
theorem State.placeBytes_get (s : State) (a : Nat) (bs : List Byte) (b : Nat) :
    (s.placeBytes a bs).mem.get b =
      if a ≤ b ∧ b < 256 then (bs[b - a]?).getD (s.mem.get b) else s.mem.get b := by
  induction bs generalizing s a with
  | nil => simp [State.placeBytes]
  | cons c bs ih =>
    simp only [State.placeBytes, ih]
    by_cases hb : b = a
    · subst hb
      by_cases h256 : b < 256 <;> simp [h256]
    · have hne : (if a < 256 then s.setMem (s.mem.set a c) else s).mem.get b = s.mem.get b := by
        split_ifs <;> simp [hb]
      rw [hne]
      by_cases hab : a + 1 ≤ b
      · have : b - a = (b - (a + 1)) + 1 := by omega
        simp [hab, this, show a ≤ b by omega]
      · simp [hab, show ¬ a ≤ b by omega]

theorem State.reset_wf : State.reset.mem.wf := Memory.wf_nil

end Sys2Proof.Machine
end

