-- ==== Sys2Proof/Laws/Ops.lean ====
section
/-! SUPPORT. Each shared operation: everything it can answer, said once. -/

namespace Sys2Proof.Machine

/-! ## Except -/

@[simp] theorem except_ok_bind {α β : Type} (a : α) (f : α → Except Error β) :
    ((Except.ok a : Except Error α) >>= f) = f a := rfl

@[simp] theorem except_error_bind {α β : Type} (e : Error) (f : α → Except Error β) :
    ((Except.error e : Except Error α) >>= f) = .error e := rfl

@[simp] theorem except_pure {α : Type} (a : α) : (pure a : Except Error α) = .ok a := rfl

@[simp] theorem commit_ok (s t : State) : commit s (.ok t) = .next t := rfl

@[simp] theorem commit_error (s : State) (e : Error) : commit s (.error e) = .next (s.raise e) := rfl

/-! ## Registers and operands -/

/-- RegIndex on a byte that names register i. -/
theorem State.regIndex_of_eq (s : State) {b : Byte} {i : RegIndex} (h : b.toNat = i.val) :
    s.regIndex b = .ok i := by
  have hb : b.toNat < 8 := h ▸ i.isLt
  unfold State.regIndex
  rw [dif_pos hb]
  exact congrArg Except.ok (Fin.ext h)

/-- RegIndex on a byte that names no register. -/
theorem State.regIndex_of_ge (s : State) {b : Byte} (h : 8 ≤ b.toNat) :
    s.regIndex b = .error (.outOfBounds .register b.toNat s.pc) :=
  dif_neg (not_lt.2 h)

/-- A byte names a register, or it names none. -/
theorem regOperand_cases (b : Byte) : (∃ i : RegIndex, b.toNat = i.val) ∨ 8 ≤ b.toNat := by
  by_cases h : b.toNat < 8
  · exact .inl ⟨⟨b.toNat, h⟩, rfl⟩
  · exact .inr (not_lt.1 h)

/-- With reset values for all registers, no read raises UnwrittenRegister. -/
theorem State.checkWritten_of_some {cfg : Config} (h : cfg.gprInit.isSome = Bool.true) (s : State) (i : RegIndex) :
    s.checkWritten cfg i = .ok () := by
  unfold State.checkWritten
  rw [Option.isSome_iff_ne_none] at h
  simp [h]

@[simp] theorem State.checkWritten_core (s : State) (i : RegIndex) : s.checkWritten coreConfig i = .ok () :=
  s.checkWritten_of_some rfl i

/-- With none, a read of a register not yet written raises, and of a written one does not. -/
theorem State.checkWritten_of_none {cfg : Config} (h : cfg.gprInit = none) (s : State) (i : RegIndex) :
    s.checkWritten cfg i = if s.isWritten i then .ok () else .error (.unwrittenRegister i) := by
  unfold State.checkWritten
  cases hw : s.isWritten i <;> simp [h]

@[simp] theorem State.readOperand_core (s : State) (b : Byte) : s.readOperand coreConfig b = s.regIndex b := by
  unfold State.readOperand
  cases s.regIndex b <;> simp

@[simp] theorem State.readOperands_core (s : State) (a b : Byte) :
    s.readOperands coreConfig a b = (do
      let i ← s.regIndex a
      let j ← s.regIndex b
      return (i, j)) := by
  unfold State.readOperands
  cases s.regIndex a <;> cases s.regIndex b <;> simp

/-! ## Memory at an address a byte names -/

@[simp] theorem State.memRead_byte (s : State) (b : Byte) : s.memRead b.toNat = .ok (s.mem.get b.toNat) :=
  if_pos b.isLt

@[simp] theorem State.memWrite_byte (s : State) (b v : Byte) :
    s.memWrite b.toNat v = .ok (s.setMem (s.mem.set b.toNat v)) :=
  if_pos b.isLt

/-! ## The flag -/

/-- Under `asFalse` the flag reads TRUE exactly when it is TRUE. -/
theorem State.flagRead_asFalse {cfg : Config} (h : cfg.unsetPolicy = .asFalse) (s : State) :
    s.flagRead cfg = .ok (decide (s.eq = .true)) := by
  unfold State.flagRead
  rw [h]
  cases s.eq <;> rfl

@[simp] theorem State.flagRead_core (s : State) : s.flagRead coreConfig = .ok (decide (s.eq = .true)) :=
  s.flagRead_asFalse rfl

theorem compareFlag_eq (b : Bool) : compareFlag b = if b then .true else .false := by
  cases b <;> rfl

theorem compareFlag_ne_unset (b : Bool) : compareFlag b ≠ .unset := by
  cases b <;> simp [compareFlag]

/-! ## The rules on the machine this model fixes -/

/-- Every rule answers a next state: all its writes, or only the error (R106). -/
theorem commit_cases (s : State) (r : Except Error State) :
    (∃ t, r = .ok t ∧ commit s r = .next t) ∨ (∃ e, r = .error e ∧ commit s r = .next (s.raise e)) := by
  cases r with
  | ok t => exact .inl ⟨t, rfl, rfl⟩
  | error e => exact .inr ⟨e, rfl, rfl⟩

/-- exec is the parametric machine's at this machine's parameters. -/
theorem exec_eq_execUnder (i : Instr) (s : State) : exec i s = execUnder coreConfig i s := by
  cases i <;> rfl

theorem exec_eq_commit (i : Instr) (s : State) : exec i s = commit s (ruleOf coreConfig i s) :=
  exec_eq_execUnder i s

/-- step is the parametric machine's at this machine's parameters. -/
theorem step_eq_stepUnder (s : State) : step s = stepUnder coreConfig s := by
  unfold step stepUnder
  rw [show exec = execUnder coreConfig from funext fun i => funext fun s => exec_eq_execUnder i s]

/-! ## The loop -/

/-- What a step answers: it exists only on a RUNNING machine, and then raises the fetch's error or is the
dispatched instruction's answer. -/
theorem stepWith_cases (m : OpcodeMap) (ex : Instr → State → Host.Outcome State Fault Refusal) (s : State) :
    (s.run = .halted ∧ stepWith m ex s = .fault .noStepHalted) ∨
    (∃ e, s.run = .faulted e ∧ stepWith m ex s = .fault (.noStepFaulted e)) ∨
    (∃ e, s.run = .running ∧ s.fetch m = .error e ∧ stepWith m ex s = .next (s.raise e)) ∨
    (∃ i, s.run = .running ∧ s.fetch m = .ok i ∧ stepWith m ex s = ex i s) := by
  unfold stepWith
  cases hr : s.run with
  | halted => exact .inl ⟨rfl, rfl⟩
  | faulted e => exact .inr (.inl ⟨e, rfl, rfl⟩)
  | running =>
    cases hf : s.fetch m with
    | error e => exact .inr (.inr (.inl ⟨e, rfl, rfl, rfl⟩))
    | ok i => exact .inr (.inr (.inr ⟨i, rfl, rfl, rfl⟩))

/-- A fetched instruction's bytes all lie in memory: its first byte and its last. -/
theorem State.fetch_ok {m : OpcodeMap} {s : State} {i : Instr} (h : s.fetch m = .ok i) :
    s.pc < 256 ∧ ∃ k b1 b2, lookupOpcode m (s.mem.get s.pc) = some k ∧ i = buildInstr k b1 b2 ∧
      s.pc + mnemonicWidth k ≤ 256 := by
  unfold State.fetch State.fetchOpcode State.memRead at h
  split_ifs at h with hpc
  · refine ⟨hpc, ?_⟩
    simp only [except_ok_bind] at h
    cases hk : lookupOpcode m (s.mem.get s.pc) with
    | none => simp [hk] at h
    | some k =>
      simp only [hk, State.fetchOperands, State.memRead] at h
      refine ⟨k, ?_⟩
      have hw : 1 ≤ mnemonicWidth k ∧ mnemonicWidth k ≤ 3 := by cases k <;> decide
      split_ifs at h <;> simp only [except_ok_bind, except_error_bind, except_pure] at h <;> try cases h
      all_goals exact ⟨_, _, rfl, rfl, by omega⟩
  · simp at h

end Sys2Proof.Machine
end

