-- ==== Sys2Proof/Laws/Fetch.lean ====
section
/-! SUPPORT. The fetch is the decoder on the bytes at the program counter. -/

namespace Sys2Proof.Machine

/-- The bytes at the PC that exist: none from 256 on, and fewer than three at the top of memory. -/
theorem State.bytesAtPc_cases (s : State) :
    (256 ≤ s.pc ∧ s.bytesAtPc = []) ∨
    (s.pc = 255 ∧ s.bytesAtPc = [s.mem.get 255]) ∨
    (s.pc = 254 ∧ s.bytesAtPc = [s.mem.get 254, s.mem.get 255]) ∨
    (s.pc ≤ 253 ∧ s.bytesAtPc = [s.mem.get s.pc, s.mem.get (s.pc + 1), s.mem.get (s.pc + 2)]) := by
  unfold State.bytesAtPc
  rcases (show 256 ≤ s.pc ∨ s.pc = 255 ∨ s.pc = 254 ∨ s.pc ≤ 253 by omega) with h | h | h | h
  · exact .inl ⟨h, by simp [show ¬ s.pc < 256 by omega, show ¬ s.pc + 1 < 256 by omega, show ¬ s.pc + 2 < 256 by omega]⟩
  · exact .inr (.inl ⟨h, by simp [h]⟩)
  · exact .inr (.inr (.inl ⟨h, by simp [h]⟩))
  · exact .inr (.inr (.inr ⟨h, by
      simp [show s.pc < 256 by omega, show s.pc + 1 < 256 by omega, show s.pc + 2 < 256 by omega]⟩))

theorem mnemonicWidth_cases (k : Mnemonic) : mnemonicWidth k = 1 ∨ mnemonicWidth k = 2 ∨ mnemonicWidth k = 3 := by
  cases k <;> decide

/-- What the fetch answers (R102, R103, R104), said once through the decoder. -/
theorem State.fetch_eq_decode (m : OpcodeMap) (s : State) :
    s.fetch m = match decode m s.bytesAtPc with
      | .ok (i, _) => .ok i
      | .error .noByte => .error (.outOfBounds .memory s.pc s.pc)
      | .error (.unknownOpcode op) => .error (.unknownOpcode op s.pc)
      | .error (.missingOperand _) => .error (.outOfBounds .memory 256 s.pc) := by
  unfold State.fetch State.fetchOpcode State.fetchOperands State.memRead
  rcases s.bytesAtPc_cases with ⟨h, e⟩ | ⟨h, e⟩ | ⟨h, e⟩ | ⟨h, e⟩
  · simp [e, decode, show ¬ s.pc < 256 by omega]
  · rcases hk : lookupOpcode m (s.mem.get 255) with _ | k
    · simp [e, h, decode, hk]
    · rcases mnemonicWidth_cases k with hw | hw | hw <;> simp [e, h, decode, hk, hw]
  · rcases hk : lookupOpcode m (s.mem.get 254) with _ | k
    · simp [e, h, decode, hk]
    · rcases mnemonicWidth_cases k with hw | hw | hw <;> simp [e, h, decode, hk, hw]
  · have h0 : s.pc < 256 := by omega
    have h1 : s.pc + 1 < 256 := by omega
    have h2 : s.pc + 2 < 256 := by omega
    rcases hk : lookupOpcode m (s.mem.get s.pc) with _ | k
    · simp [e, h0, decode, hk]
    · rcases mnemonicWidth_cases k with hw | hw | hw <;> simp [e, h0, h1, h2, decode, hk, hw]

end Sys2Proof.Machine
end

