-- ==== Sys2Proof/Laws/PerInstr.lean ====
section
/-! SUPPORT. A statement about every instruction as syntax, proved per instruction: its assembly is its opcode and
then its operand bytes, as many as its width says, the register operands first (spec/30_encoding.md R80, R81, R89). -/

namespace Sys2Proof.Laws.Encoding

/-- The encoded bytes start with the row's opcode, have the row's width, and go on with the register operands. -/
def Statement (i : Instr) : Prop :=
  ∀ m : OpcodeMap, (encode m i).head? = some (m (instrMnemonic i)) ∧ (encode m i).length = instrWidth i ∧
    i.regOperands <+: (encode m i).tail

theorem hlt : Statement .hlt := fun _ => ⟨rfl, rfl, List.nil_prefix⟩
theorem ldi (r imm : Byte) : Statement (.ldi r imm) := fun _ => ⟨rfl, rfl, List.prefix_append [r] [imm]⟩
theorem prn (r : Byte) : Statement (.prn r) := fun _ => ⟨rfl, rfl, List.prefix_rfl⟩
theorem add (a b : Byte) : Statement (.add a b) := fun _ => ⟨rfl, rfl, List.prefix_rfl⟩
theorem mul (a b : Byte) : Statement (.mul a b) := fun _ => ⟨rfl, rfl, List.prefix_rfl⟩
theorem cmp (a b : Byte) : Statement (.cmp a b) := fun _ => ⟨rfl, rfl, List.prefix_rfl⟩
theorem push (r : Byte) : Statement (.push r) := fun _ => ⟨rfl, rfl, List.prefix_rfl⟩
theorem pop (r : Byte) : Statement (.pop r) := fun _ => ⟨rfl, rfl, List.prefix_rfl⟩
theorem call (r : Byte) : Statement (.call r) := fun _ => ⟨rfl, rfl, List.prefix_rfl⟩
theorem ret : Statement .ret := fun _ => ⟨rfl, rfl, List.nil_prefix⟩
theorem jmp (r : Byte) : Statement (.jmp r) := fun _ => ⟨rfl, rfl, List.prefix_rfl⟩
theorem jeq (r : Byte) : Statement (.jeq r) := fun _ => ⟨rfl, rfl, List.prefix_rfl⟩
theorem jne (r : Byte) : Statement (.jne r) := fun _ => ⟨rfl, rfl, List.prefix_rfl⟩

end Sys2Proof.Laws.Encoding
end

