-- ==== Sys2Proof/Tests/Slice0.lean ====
section
/-! SUPPORT. Tests. Expected results are those of spec/95_test_vectors.md (named in each comment) or are read off the
rule's own text. After them, one witness for every statement that has hypotheses, at the boundary of its clauses. -/

namespace Sys2Proof.Tests

open Sys2Proof Sys2Proof.Machine

/-! ## Words written out from R81 and R83 decode to what they stand for, one per constructor -/

/-- The decoder's answer as an Option. -/
def decoded (bs : List Byte) : Option (Instr × List Byte) := (decode ls8OpcodeMap bs).toOption

theorem test_decode_hlt : decoded [0b00000001] = some (.hlt, []) := by decide
theorem test_decode_ldi : decoded [0b10000010, 0b00000000, 0b00001000] = some (.ldi 0 8, []) := by decide
theorem test_decode_prn : decoded [0b01000111, 0b00000111] = some (.prn 7, []) := by decide
theorem test_decode_add : decoded [0b10100000, 0b00000000, 0b00000001] = some (.add 0 1, []) := by decide
theorem test_decode_mul : decoded [0b10100010, 0b00000010, 0b00000001] = some (.mul 2 1, []) := by decide
theorem test_decode_cmp : decoded [0b10100111, 0b00000011, 0b00000100] = some (.cmp 3 4, []) := by decide
theorem test_decode_push : decoded [0b01000101, 0b00000000] = some (.push 0, []) := by decide
theorem test_decode_pop : decoded [0b01000110, 0b00000001] = some (.pop 1, []) := by decide
theorem test_decode_call : decoded [0b01010000, 0b00000001] = some (.call 1, []) := by decide
theorem test_decode_ret : decoded [0b00010001, 0b11111111] = some (.ret, [0b11111111]) := by decide
theorem test_decode_jmp : decoded [0b01010100, 0b00000010] = some (.jmp 2, []) := by decide
theorem test_decode_jeq : decoded [0b01010101, 0b00001001] = some (.jeq 9, []) := by decide
theorem test_decode_jne : decoded [0b01010110, 0b00000011] = some (.jne 3, []) := by decide

/-- R83, R85: 13 different byte values are assigned, so the other 243 spell no instruction; 0x00 (R85) and LS-8's SUB
0xA1 (L2.1 #3) are among those. -/
theorem test_assigned_opcodes :
    (opcodeRows.map ls8OpcodeMap).Nodup ∧ opcodeRows.length = 13 ∧
      lookupOpcode ls8OpcodeMap 0x00 = none ∧ lookupOpcode ls8OpcodeMap 0xA1 = none := by decide

/-- A row's operand bytes that are missing are named. -/
theorem test_decode_rejects_by_name :
    (match decode ls8OpcodeMap [0x82, 0] with | .error (.missingOperand .ldi) => true | _ => false) = true ∧
    (match decode ls8OpcodeMap [0xFF] with | .error (.unknownOpcode 0xFF) => true | _ => false) = true := by decide

theorem test_table_word : decodeTableWord 24 0x010082 = some (.ldi 0 1) ∧ decodeTableWord 8 0x82 = some (.ldi 0 0) := by
  decide

/-- R89's examples, and L2.2 #5. -/
theorem test_assembly_text :
    asmText (.ldi 0 8) = "LDI R0,8" ∧ asmText (.mul 0 1) = "MUL R0,R1" ∧ asmText .hlt = "HLT" ∧
      asmText (.ldi 8 1) = "LDI R8,1" := by decide

/-- R224's bounds, and the kinds of D25. -/
theorem test_error_record :
    spaceBound .memory = 256 ∧ spaceBound .register = 8 ∧ spaceBound .value = 256 ∧
      errorKind (.unknownOpcode 0 0) = .unknownOpcode ∧ loadFailureKind (.tooLong 257) = .loadFailure := by decide

/-! ## WellFormed refuses an ill-formed term for each register operand of each instruction -/

theorem test_illformed_one_operand :
    ¬ (Instr.ldi 8 0).WellFormed ∧ ¬ (Instr.prn 255).WellFormed ∧ ¬ (Instr.push 8).WellFormed ∧
      ¬ (Instr.pop 8).WellFormed ∧ ¬ (Instr.call 9).WellFormed ∧ ¬ (Instr.jmp 8).WellFormed ∧
      ¬ (Instr.jeq 128).WellFormed ∧ ¬ (Instr.jne 8).WellFormed := by decide

theorem test_illformed_two_operands :
    ¬ (Instr.add 8 0).WellFormed ∧ ¬ (Instr.add 0 8).WellFormed ∧ ¬ (Instr.mul 8 0).WellFormed ∧
      ¬ (Instr.mul 0 8).WellFormed ∧ ¬ (Instr.cmp 8 0).WellFormed ∧ ¬ (Instr.cmp 0 8).WellFormed := by decide

theorem test_wellformed : (Instr.ldi 7 255).WellFormed ∧ (Instr.add 7 7).WellFormed ∧ Instr.ret.WellFormed := by decide

/-! ## One step of each instruction, on small states -/

/-- Reset, some registers set, bytes placed from the PC upward. -/
def at_ (pc : Nat) (regs : List (RegIndex × Byte)) (bytes : List Byte) (eq : EqFlag := .unset) : State :=
  let s := regs.foldl (fun s p => s.setReg p.1 p.2) State.reset
  ({ s with pc := pc, eq := eq }).placeBytes pc bytes

/-- A byte of data in memory. -/
def poke (s : State) (a : Nat) (v : Byte) : State := s.setMem (s.mem.set a v)

/-- What a part of the next state is, if there is a next state. -/
def next? {α : Type} (o : Host.Outcome State Fault Refusal) (f : State → α) : Option α :=
  match o with
  | .next t => some (f t)
  | .fault _ => none
  | .refused _ => none

-- L2.2 #1 and L2.1 #8
theorem test_hlt : next? (step (at_ 10 [] [0x01])) (fun t => (t.run, t.pc)) = some (.halted, 11) := by decide
theorem test_hlt_at_255 : next? (step (at_ 255 [] [0x01])) (fun t => (t.run, t.pc)) = some (.halted, 256) := by decide
-- L2.2 #4 and #5
theorem test_ldi_sp : next? (step (at_ 0 [] [0x82, 7, 16])) (fun t => (t.sp, t.pc)) = some (16, 3) := by decide
theorem test_ldi_r8 : next? (step (at_ 0 [] [0x82, 8, 1])) (fun t => t.run) =
    some (.faulted (.outOfBounds .register 8 0)) := by decide
-- L2.2 #7 and #9
theorem test_prn : next? (step (at_ 0 [(0, 8)] [0x47, 0])) (fun t => (t.out, t.pc)) = some ([8], 2) := by decide
theorem test_prn_r9 : next? (step (at_ 0 [] [0x47, 9])) (fun t => (t.run, t.out)) =
    some (.faulted (.outOfBounds .register 9 0), []) := by decide
-- L2.3 #1 and #9
theorem test_add_wraps : next? (step (at_ 0 [(0, 200), (1, 100)] [0xA0, 0, 1])) (fun t => (t.reg 0, t.reg 1)) =
    some (44, 100) := by decide
theorem test_add_first_operand_first : next? (step (at_ 0 [] [0xA0, 9, 8])) (fun t => t.run) =
    some (.faulted (.outOfBounds .register 9 0)) := by decide
-- L2.3 #12 and #13
theorem test_mul_255 : next? (step (at_ 0 [(0, 255), (1, 255)] [0xA2, 0, 1])) (fun t => t.reg 0) = some 1 := by decide
theorem test_mul_300 : next? (step (at_ 0 [(0, 3), (1, 100)] [0xA2, 0, 1])) (fun t => (t.reg 0, t.reg 1)) =
    some (44, 100) := by decide
-- L2.3 #17 and #21
theorem test_cmp_equal : next? (step (at_ 0 [(0, 5), (1, 5)] [0xA7, 0, 1])) (fun t => t.eq) = some .true := by decide
theorem test_cmp_clears : next? (step (at_ 0 [(0, 1), (1, 2)] [0xA7, 0, 1] .true)) (fun t => t.eq) = some .false := by
  decide
-- L2.4 #2 and #3
theorem test_push_wraps : next? (step (at_ 0 [(7, 0), (0, 9)] [0x45, 0])) (fun t => (t.sp, t.mem.get 255)) =
    some (255, 9) := by decide
theorem test_push_sp : next? (step (at_ 0 [] [0x45, 7])) (fun t => (t.sp, t.mem.get 254)) = some (254, 254) := by decide
-- L2.4 #5 and #7
theorem test_pop : next? (step (poke (at_ 0 [(7, 254)] [0x46, 1]) 254 7))
    (fun t => (t.reg 1, t.sp, t.mem.get 254)) = some (7, 255, 7) := by decide
theorem test_pop_sp : next? (step (poke (at_ 0 [(7, 254)] [0x46, 7]) 254 0x10)) (fun t => t.sp) = some 0x11 := by
  decide
-- L2.5 #1 and #4
theorem test_call : next? (step (at_ 6 [(1, 11)] [0x50, 1])) (fun t => (t.sp, t.mem.get 254, t.pc)) =
    some (254, 8, 11) := by decide
theorem test_call_sp : next? (step (at_ 0 [] [0x50, 7])) (fun t => (t.sp, t.mem.get 254, t.pc)) =
    some (254, 2, 254) := by decide
-- L2.5 #3
theorem test_call_at_254 : next? (step (at_ 254 [(1, 0)] [0x50, 1])) (fun t => t.run) =
    some (.faulted (.outOfBounds .value 256 254)) := by decide
-- L2.5 #6 and #7
theorem test_ret : next? (step (poke (at_ 0 [(7, 254)] [0x11]) 254 8)) (fun t => (t.pc, t.sp)) =
    some (8, 255) := by decide
theorem test_ret_empty : next? (step (at_ 3 [] [0x11])) (fun t => (t.pc, t.sp)) = some (0, 0) := by decide
-- L2.5 #8 and #10
theorem test_jmp : next? (step (at_ 0 [(2, 0x20)] [0x54, 2])) (fun t => t.pc) = some 0x20 := by decide
theorem test_jmp_r8 : next? (step (at_ 0 [] [0x54, 8])) (fun t => t.run) =
    some (.faulted (.outOfBounds .register 8 0)) := by decide
-- L2.5 #13 and #15
theorem test_jeq_unset : next? (step (at_ 20 [(3, 12)] [0x55, 3])) (fun t => t.pc) = some 22 := by decide
theorem test_jeq_untaken_r9 : next? (step (at_ 20 [] [0x55, 9] .false)) (fun t => (t.pc, t.run)) =
    some (22, .running) := by decide
-- L2.5 #18 and #19
theorem test_jne_equal : next? (step (at_ 20 [(3, 12)] [0x56, 3] .true)) (fun t => t.pc) = some 22 := by decide
theorem test_jne_unset : next? (step (at_ 20 [(3, 12)] [0x56, 3])) (fun t => t.pc) = some 12 := by decide
-- L2.1 #4, #5 and #7
theorem test_fetch_at_256 : next? (step (at_ 256 [] [])) (fun t => t.run) =
    some (.faulted (.outOfBounds .memory 256 256)) := by decide
theorem test_fetch_ldi_at_254 : next? (step (at_ 254 [] [0x82])) (fun t => t.run) =
    some (.faulted (.outOfBounds .memory 256 254)) := by decide
theorem test_fetch_jeq_at_255 : next? (step (at_ 255 [] [0x55] .false)) (fun t => t.run) =
    some (.faulted (.outOfBounds .memory 256 255)) := by decide
-- L2.2 #10, under the spec's own default of gprInit
theorem test_unwritten : next? (stepUnder specConfig ((State.resetUnder specConfig).placeBytes 0 [0x47, 0]))
    (fun t => t.run) = some (.faulted (.unwrittenRegister 0)) := by decide
-- L2.5 #14
theorem test_unset_fault : next? (stepUnder { coreConfig with unsetPolicy := .fault } (at_ 20 [(3, 12)] [0x55, 3]))
    (fun t => t.run) = some (.faulted (.unsetFlag 20)) := by decide
-- L2.6 #1, and D20
theorem test_empty_program : ((load (some [])).toOption.bind fun s => next? (step s) fun t => t.run) =
    some (.faulted (.unknownOpcode 0 0)) := by decide
/-- `withFetchWord` places what the next step runs. -/
theorem test_withFetchWord : next? (step (State.reset.withFetchWord 24 0x080082)) (fun t => (t.reg 0, t.pc)) =
    some (8, 3) := by decide

/-! ## A witness for every statement that has hypotheses -/

/-- Also for LookupFindsTheRow. -/
theorem witness_DecodeInvertsEncode : Function.Injective ls8OpcodeMap := ls8OpcodeMap_injective

theorem witness_EncodeInvertsDecode : decoded [0x47, 255, 1] = some (.prn 255, [1]) := by decide

/-- A straddle of the last cells: PRN at 254. -/
theorem witness_StepRunsTheDecodedInstruction :
    let s := at_ 254 [] [0x47, 7]
    s.run = .running ∧ decoded s.bytesAtPc = some (.prn 7, []) := by decide

/-- Its three clauses: the PC at 256, an unknown byte at 255, and an operand at 256. -/
theorem witness_StepRaisesWhatDecodeRefuses :
    (at_ 256 [] []).run = .running ∧
    (match decode coreConfig.opcodeMap (at_ 256 [] []).bytesAtPc with | .error .noByte => true | _ => false) = true ∧
    (match decode coreConfig.opcodeMap (at_ 255 [] [0]).bytesAtPc with
      | .error (.unknownOpcode 0) => true | _ => false) = true ∧
    (match decode coreConfig.opcodeMap (at_ 254 [] [0x82]).bytesAtPc with
      | .error (.missingOperand .ldi) => true | _ => false) = true := by decide

theorem unknown_of_lookup {op : Byte} (h : lookupOpcode ls8OpcodeMap op = none) : ∀ k, coreConfig.opcodeMap k ≠ op :=
  lookupOpcode_none.1 h

theorem witness_UnknownOpcodeIsRaised :
    (at_ 255 [] [0xFF]).run = .running ∧ (at_ 255 [] [0xFF]).pc ≤ 255 ∧ (at_ 255 [] [0xFF]).mem.get 255 = 0xFF ∧
      (∀ k, coreConfig.opcodeMap k ≠ 0xFF) ∧ ([0xFF] : List Byte).length ≤ 256 :=
  ⟨by decide, by decide, by decide, unknown_of_lookup (by decide), by decide⟩

theorem witness_NoStepUnlessRunning :
    State.reset.halt.run ≠ .running ∧ (State.reset.raise (.unknownOpcode 0 0)).run ≠ .running := by decide

theorem witness_RunStateChangesAsListed :
    (next? (step (at_ 255 [] [0x01])) fun t => t.run) = some .halted ∧
    (next? (step (at_ 0 [] [0x47, 7])) fun t => t.run) = some .running := by decide

theorem witness_ErrorsRaisedExactlyAsListed :
    State.reset.run = .running ∧ ruleError (.add 7 8) State.reset = some (.outOfBounds .register 8 0) ∧
    ruleError (.call 7) { State.reset with pc := 254 } = some (.outOfBounds .value 256 254) ∧
    ruleError (.call 7) { State.reset with pc := 253 } = none := by decide

/-- A CALL at 253, the last one whose return address is a byte. -/
theorem witness_WellFormedInstructionStepsSafely :
    let s := at_ 253 [] [0x50, 7]
    s.run = .running ∧ (s.fetch coreConfig.opcodeMap).toOption = some (.call 7) ∧ (Instr.call 7).WellFormed ∧
      s.pc + 2 ≤ 255 := by decide

theorem witness_ResetLeavesTheListedValues :
    coreConfig.gprInit = some (fun _ => 0) ∧ specConfig.gprInit = none ∧ ((6 : RegIndex).val < 7) ∧
      (0 : RegIndex) ≠ spIndex := ⟨rfl, rfl, by decide, by decide⟩

theorem witness_LoadPlacesTheProgram :
    (List.replicate 256 (1 : Byte)).length ≤ 256 ∧ 256 < (List.replicate 257 (1 : Byte)).length ∧
      0 < (List.replicate 256 (1 : Byte)).length := by
  refine ⟨?_, ?_, ?_⟩ <;> rw [List.length_replicate] <;> decide

theorem witness_LoadedMachineMeetsInv : (loadUnder specConfig (some [0x01])).toOption.isSome = true := by decide

theorem witness_StepKeepsInv :
    (at_ 255 [] [0x01]).Inv ∧ (next? (step (at_ 255 [] [0x01])) fun t => t.pc) = some 256 ∧
      (next? (stepUnder specConfig (at_ 255 [] [0x01])) fun t => t.pc) = some 256 := by decide

theorem witness_EndOfRunIsStable : (runUnder coreConfig 1 (at_ 0 [] [0x01])).run ≠ .running ∧ 1 ≤ 2 := by decide

theorem witness_EndOfRunIsObserved :
    (next? (step (at_ 0 [] [0x01])) fun t => t.run) = some .halted ∧
    ((at_ 0 [] [0x01]).fetch coreConfig.opcodeMap).toOption = some .hlt ∧
    (next? (step (at_ 0 [] [0])) fun t => t.run) = some (.faulted (.unknownOpcode 0 0)) := by decide

theorem witness_MemoryReadsAndWrites : 255 ≤ 255 ∧ 255 < 256 := by decide

/-- The fetch clause of each instruction statement: every row with an operand byte, its opcode at 255; and the 3-byte
rows at 254. -/
theorem witness_FetchRaisesPastTheEnd :
    (∀ k ∈ opcodeRows, mnemonicWidth k ≠ 1 →
      let s := at_ 255 [] [coreConfig.opcodeMap k]
      s.run = .running ∧ s.pc ≤ 255 ∧ s.mem.get s.pc = coreConfig.opcodeMap k ∧ 256 < s.pc + mnemonicWidth k) ∧
    (∀ k ∈ opcodeRows, mnemonicWidth k = 3 →
      let s := at_ 254 [] [coreConfig.opcodeMap k]
      s.run = .running ∧ s.pc ≤ 255 ∧ s.mem.get s.pc = coreConfig.opcodeMap k ∧ 256 < s.pc + mnemonicWidth k) := by
  decide

/-- The operand clauses of LdiLoadsTheImmediate, PrnEmitsTheRegister, LdiThenPrnEmitsTheValue, PushStoresBelow,
PopLoadsFromTheTop, PushThenPopRestores and JmpJumps: 7 names R7, 8 names none. -/
theorem witness_one_operand : (7 : Byte).toNat = (7 : RegIndex).val ∧ (7 : Byte).toNat < 8 ∧ 8 ≤ (8 : Byte).toNat := by
  decide

/-- The operand clauses of AddWritesTheSum, MulWritesTheProduct and CmpSetsTheFlag, with the unwritten ones; R0 is also
JmpJumps' unwritten register. -/
theorem witness_two_operands :
    (7 : Byte).toNat = (7 : RegIndex).val ∧ (0 : Byte).toNat = (0 : RegIndex).val ∧
    8 ≤ (8 : Byte).toNat ∧ (7 : Byte).toNat < 8 ∧ specConfig.gprInit = none ∧
    (State.resetUnder specConfig).isWritten 0 = false ∧ (State.resetUnder specConfig).isWritten 7 = true :=
  ⟨by decide, by decide, by decide, by decide, rfl, by decide, by decide⟩

/-- CALL's clauses: pc 253 and pc 254, R7 and a byte that names no register. -/
theorem witness_CallStoresTheReturnAddress :
    (7 : Byte).toNat = (7 : RegIndex).val ∧ (at_ 253 [] []).pc + 2 ≤ 255 ∧ 255 < (at_ 254 [] []).pc + 2 ∧
      8 ≤ (8 : Byte).toNat := by decide

theorem witness_CallThenRetReturns :
    ∃ t, exec (.call 1) (at_ 6 [(1, 11)] []) = .next t ∧ t.NotFaulted :=
  ⟨_, rfl, fun e h => nomatch (show RunState.running = .faulted e from h)⟩

/-- JEQ's and JNE's clauses: taken and not, with an operand that names a register and one that names none. -/
theorem witness_branches :
    (at_ 0 [] [] .true).eq = .true ∧ (at_ 0 [] [] .false).eq ≠ .true ∧ (at_ 0 [] [] .unset).eq ≠ .true ∧
      (7 : Byte).toNat = (7 : RegIndex).val ∧ 8 ≤ (8 : Byte).toNat := by decide

/-- PcIsSetAsListed, FlagSetAndReadAsListed, OutputGrowsOnlyByPrn, MemoryTouchedAsListed and RegistersTouchedAsListed:
instructions that answer a next state with no error. -/
theorem witness_next_without_error :
    (next? (exec .hlt State.reset) fun t => t.run) = some .halted ∧
    (next? (exec (.cmp 0 7) State.reset) fun t => t.run) = some .running ∧
    (next? (exec (.prn 7) State.reset) fun t => t.run) = some .running ∧
    (next? (exec (.push 0) State.reset) fun t => t.run) = some .running ∧
    (next? (exec (.ldi 7 3) State.reset) fun t => (t.run, t.reg 7)) = some (.running, 3) := by decide

/-- The two-state clauses: a memory equal at the PC's three bytes and at SP; a register no ADD of others reads. -/
theorem witness_two_state_clauses :
    (∀ a, 10 ≤ a → a ≤ 12 → Memory.get [(9, 1)] a = (at_ 10 [] []).mem.get a) ∧
    Memory.get [(9, 1)] State.reset.sp.toNat = State.reset.mem.get State.reset.sp.toNat ∧
    (∀ b ∈ regsRead (.add 0 1), b.toNat ≠ (2 : RegIndex).val) ∧
    (∀ b ∈ regsRead (.pop 0), b.toNat ≠ (0 : RegIndex).val) ∧ (0 : RegIndex) ≠ spIndex := by
  refine ⟨fun a h1 h2 => ?_, by decide, by decide, by decide, by decide⟩
  rcases (show a = 10 ∨ a = 11 ∨ a = 12 by omega) with rfl | rfl | rfl <;> decide

/-- The stored byte as the next opcode (L3.P6's PUSH; CALL R7, which goes to where it stored), as the first operand byte,
at 255 too, and as the second. -/
theorem witness_StoredByteIsFetchedNext :
    (0 : Byte).toNat = (0 : RegIndex).val ∧ (7 : Byte).toNat = (7 : RegIndex).val ∧ (at_ 253 [] []).pc + 2 ≤ 255 ∧
    (∀ p ∈ [(6, (9 : Byte), 0), (6, 10, 1), (6, 11, 2), (253, 0, 0), (252, 0, 1), (251, 0, 2)],
      let s := at_ p.1 [(7, p.2.1)] [0x45, 0]
      s.pc + 2 + p.2.2 = s.decSp.sp.toNat) ∧
    (∀ p ∈ [((7 : RegIndex), (255 : Byte), 0), (0, 253, 1), (0, 252, 2)],
      let s := at_ 0 [(p.1, p.2.1)] [0x50, 0]
      (s.decSp.reg p.1).toNat + p.2.2 = s.decSp.sp.toNat) := by decide

theorem witness_UnsetFlagPolicy :
    (at_ 0 [] [] .true).eq = .true ∧ (at_ 0 [] [] .false).eq = .false ∧ State.reset.eq = .unset ∧
      coreConfig.unsetPolicy = .asFalse ∧ ({ coreConfig with unsetPolicy := .fault } : Config).unsetPolicy = .fault := by
  decide

/-- Its clauses: an unwritten operand, pc 253 and 254, each branch taken (JNE on UNSET, the first after reset) and not
taken, reset values, and the written R7 as the read operand. -/
theorem witness_UnwrittenRegisterPolicy :
    let s := { State.resetUnder specConfig with pc := 253 }
    specConfig.gprInit = none ∧ (6 : Byte).toNat = (6 : RegIndex).val ∧ s.isWritten 6 = false ∧ s.pc + 2 ≤ 255 ∧
      255 < { s with pc := 254 }.pc + 2 ∧ { s with eq := .true }.flagRead specConfig = .ok true ∧
      s.flagRead specConfig = .ok false ∧ s.flagRead specConfig = s.flagRead coreConfig ∧
      coreConfig.gprInit.isSome = true ∧ State.reset.run = .running ∧
      (∀ b ∈ regsRead (.jne 7), ∀ k : RegIndex, b.toNat = k.val → s.isWritten k = true) :=
  ⟨rfl, by decide, by decide, by decide, by decide, rfl, rfl, rfl, rfl, rfl, by decide⟩

end Sys2Proof.Tests
end

section
/-! SUPPORT. What an instruction does, said once: `exec` is a total function of the state, the error `ruleError` names
or else the state `ruleEffect` gives. Every proof about all instructions starts from `exec_eq`. -/

namespace Sys2Proof.Machine

/-! ## Register operands -/

/-- The register an operand byte names; it means something only for a byte 0..7 (R82). -/
def operandReg (b : Byte) : RegIndex := Fin.ofNat 8 b.toNat

theorem operandReg_of_eq {b : Byte} {k : RegIndex} (h : b.toNat = k.val) : operandReg b = k :=
  Fin.ext (by simp [operandReg, h])

theorem State.regIndex_eq (s : State) (b : Byte) :
    s.regIndex b = (operandError s [b]).elim (.ok (operandReg b)) .error := by
  rcases regOperand_cases b with ⟨k, hk⟩ | h
  · simp [s.regIndex_of_eq hk, operandReg_of_eq hk, operandError, show b.toNat < 8 from hk ▸ k.isLt]
  · simp [s.regIndex_of_ge h, operandError, not_lt.2 h]

/-- Two operands are checked in their order (R225). -/
theorem operandError_pair (s : State) (a b : Byte) :
    operandError s [a, b] = (operandError s [a]).or (operandError s [b]) := by
  simp only [operandError]
  split_ifs <;> rfl

/-! ## The effect of an instruction whose rule raises nothing -/

/-- The state an instruction leaves when its rule raises nothing (R105). -/
def ruleEffect (i : Instr) (s : State) : State :=
  match i with
  | .hlt => s.halt.advance 1
  | .ldi r imm => (s.setReg (operandReg r) imm).advance 3
  | .prn r => (s.emit (s.reg (operandReg r))).advance 2
  | .add a b => (s.setReg (operandReg a) (aluResult .add (s.reg (operandReg a)) (s.reg (operandReg b)))).advance 3
  | .mul a b => (s.setReg (operandReg a) (aluResult .mul (s.reg (operandReg a)) (s.reg (operandReg b)))).advance 3
  | .cmp a b => (s.setEq (compareFlag (aluEq .cmp (s.reg (operandReg a)) (s.reg (operandReg b))))).advance 3
  | .push r => (s.decSp.setMem (s.mem.set s.decSp.sp.toNat (s.decSp.reg (operandReg r)))).advance 2
  | .pop r => ((s.setReg (operandReg r) (s.mem.get s.sp.toNat)).incSp).advance 2
  | .call r =>
    (s.decSp.setMem (s.mem.set s.decSp.sp.toNat (wrap8 (s.pc + 2)))).jump (s.decSp.reg (operandReg r))
  | .ret => (s.jump (s.mem.get s.sp.toNat)).incSp
  | .jmp r => s.jump (s.reg (operandReg r))
  | .jeq r => if s.eq = .true then s.jump (s.reg (operandReg r)) else s.advance 2
  | .jne r => if s.eq = .true then s.advance 2 else s.jump (s.reg (operandReg r))

theorem jumpRule_core (r : Byte) (s : State) :
    jumpRule coreConfig r s = (operandError s [r]).elim (.ok (s.jump (s.reg (operandReg r)))) .error := by
  simp only [jumpRule, State.readOperand_core, State.regIndex_eq]
  cases operandError s [r] <;> rfl

theorem aluWriteRule_core (op : AluOp) (a b : Byte) (s : State) :
    aluWriteRule coreConfig op a b s = (operandError s [a, b]).elim
      (.ok ((s.setReg (operandReg a) (aluResult op (s.reg (operandReg a)) (s.reg (operandReg b)))).advance 3))
      .error := by
  simp only [aluWriteRule, State.readOperands_core, State.regIndex_eq, operandError_pair]
  cases operandError s [a] <;> cases operandError s [b] <;> rfl

/-- A rule raises the error R221 and R225 list for it, or else has its effect. -/
theorem ruleOf_core (i : Instr) (s : State) :
    ruleOf coreConfig i s = (ruleError i s).elim (.ok (ruleEffect i s)) .error := by
  cases i with
  | hlt => rfl
  | ret => simp [ruleOf, retRule, ruleError, ruleEffect]
  | add a b => exact aluWriteRule_core .add a b s
  | mul a b => exact aluWriteRule_core .mul a b s
  | jmp r => exact jumpRule_core r s
  | ldi r imm =>
    simp only [ruleOf, ldiRule, ruleError, State.regIndex_eq]
    cases operandError s [r] <;> rfl
  | prn r =>
    simp only [ruleOf, prnRule, ruleError, State.readOperand_core, State.regIndex_eq]
    cases operandError s [r] <;> rfl
  | cmp a b =>
    simp only [ruleOf, cmpRule, ruleError, State.readOperands_core, State.regIndex_eq, operandError_pair]
    cases operandError s [a] <;> cases operandError s [b] <;> rfl
  | push r =>
    simp only [ruleOf, pushRule, ruleError, State.readOperand_core, State.regIndex_eq, State.memWrite_byte]
    cases operandError s [r] <;> rfl
  | pop r =>
    simp only [ruleOf, popRule, ruleError, State.regIndex_eq, State.memRead_byte]
    cases operandError s [r] <;> rfl
  | call r =>
    simp only [ruleOf, callRule, ruleError, State.regIndex_eq, State.checkWritten_core, State.memWrite_byte]
    cases operandError s [r] with
    | some e => rfl
    | none =>
      by_cases hret : s.pc + 2 ≤ 255
      · simp [hret, show ¬ 255 < s.pc + 2 by omega, ruleEffect]
      · simp [hret, show 255 < s.pc + 2 by omega]
  | jeq r =>
    simp only [ruleOf, jeqRule, branchRule, ruleError, ruleEffect, State.flagRead_core, jumpRule_core]
    by_cases hf : s.eq = .true <;> simp [hf]
  | jne r =>
    simp only [ruleOf, jneRule, branchRule, ruleError, ruleEffect, State.flagRead_core, jumpRule_core]
    by_cases hf : s.eq = .true <;> simp [hf]

/-- What `exec` answers: always a next state, the error's or the effect's (R106). -/
theorem exec_eq (i : Instr) (s : State) :
    exec i s = .next ((ruleError i s).elim (ruleEffect i s) s.raise) := by
  rw [exec_eq_commit, ruleOf_core]
  cases ruleError i s <;> rfl

/-- What a next state of an instruction is: the effect, or the state before with the one error recorded (R106). -/
theorem exec_next_cases {i : Instr} {s t : State} (h : exec i s = .next t) :
    (ruleError i s = none ∧ t = ruleEffect i s) ∨ ∃ e, ruleError i s = some e ∧ t = s.raise e := by
  rw [exec_eq, Host.Outcome.next.injEq] at h
  cases he : ruleError i s with
  | none => exact .inl ⟨rfl, by simpa [he] using h.symm⟩
  | some e => exact .inr ⟨e, rfl, by simpa [he] using h.symm⟩

/-- An answer that carries no error is the instruction's effect. -/
theorem eq_ruleEffect_of_notFaulted {i : Instr} {s t : State} (h : exec i s = .next t) (ht : t.NotFaulted) :
    ruleError i s = none ∧ t = ruleEffect i s := by
  rcases exec_next_cases h with heff | ⟨e, -, rfl⟩
  · exact heff
  · exact absurd rfl (ht e)

/-- The operand byte of a one-operand check that raises nothing names a register. -/
theorem toNat_eq_operandReg_of_operandError_none {s : State} {b : Byte} (h : operandError s [b] = none) :
    b.toNat = (operandReg b).val := by
  rcases regOperand_cases b with ⟨k, hk⟩ | hb
  · rw [operandReg_of_eq hk, hk]
  · simp [operandError, not_lt.2 hb] at h

/-! ## Two states -/

/-- Operand errors depend on the state through the PC they record alone. -/
theorem operandError_congr {s s' : State} (hpc : s'.pc = s.pc) (bs : List Byte) :
    operandError s' bs = operandError s bs := by
  induction bs with
  | nil => rfl
  | cons b bs ih => simp only [operandError, hpc, ih]

/-- An instruction's error depends on the PC alone, and for JEQ and JNE on EQ. -/
theorem ruleError_congr {i : Instr} {s s' : State} (hpc : s'.pc = s.pc)
    (hflag : ∀ r, i = .jeq r ∨ i = .jne r → s'.eq = s.eq) : ruleError i s' = ruleError i s := by
  have hop := operandError_congr hpc
  cases i with
  | hlt => rfl
  | ret => rfl
  | call r => simp only [ruleError, hop, hpc]
  | jeq r => simp only [ruleError, hop, hflag r (.inl rfl)]
  | jne r => simp only [ruleError, hop, hflag r (.inr rfl)]
  | _ => exact hop _

/-- From two states with the same error, an instruction raises it in both or has its effect in both. -/
theorem exec_pair_cases {i : Instr} {s s' : State} (h : ruleError i s' = ruleError i s) :
    (exec i s = .next (ruleEffect i s) ∧ exec i s' = .next (ruleEffect i s')) ∨
    ∃ e, exec i s = .next (s.raise e) ∧ exec i s' = .next (s'.raise e) := by
  simp only [exec_eq, h]
  cases ruleError i s with
  | none => exact .inl ⟨rfl, rfl⟩
  | some e => exact .inr ⟨e, rfl, rfl⟩

/-- Two answers agree when the errors are the same and, with no error, the effects agree. -/
theorem agree_of_ruleEffect {p : State → State → Prop} {i : Instr} {s s' u : State}
    (herr : ruleError i s' = ruleError i s) (hout : s.out = s'.out) (hu : ruleEffect i s' = u)
    (hrun' : (ruleEffect i s).run = u.run) (hout' : (ruleEffect i s).out = u.out)
    (hpc' : (ruleEffect i s).pc = u.pc) (hp : p (ruleEffect i s) u) : Agree p (exec i s) (exec i s') := by
  rcases exec_pair_cases herr with ⟨ht, hu'⟩ | ⟨e, ht, hu'⟩
  · exact ⟨_, u, ht, hu ▸ hu', hrun', hout', fun _ => ⟨hpc', hp⟩⟩
  · exact ⟨_, _, ht, hu', rfl, hout, fun hnf => absurd rfl (hnf e)⟩

end Sys2Proof.Machine
end

section
/-! SUPPORT. The comparison flag (R33): who sets EQ and who reads it. -/

namespace Sys2Proof.Machine

theorem ruleEffect_eq_of_ne_cmp {i : Instr} (hi : ∀ a b, i ≠ .cmp a b) (s : State) :
    (ruleEffect i s).eq = s.eq := by
  cases i with
  | cmp a b => exact absurd rfl (hi a b)
  | jeq r => simp only [ruleEffect]; split <;> rfl
  | jne r => simp only [ruleEffect]; split <;> rfl
  | _ => rfl

theorem ruleEffect_cmp_eq_ne_unset (a b : Byte) (s : State) : (ruleEffect (.cmp a b) s).eq ≠ .unset :=
  compareFlag_ne_unset _

/-- An instruction that does not read EQ carries it along, and CMP overwrites it. -/
theorem ruleEffect_setEq {i : Instr} (hjeq : ∀ r, i ≠ .jeq r) (hjne : ∀ r, i ≠ .jne r) (s : State) (v : EqFlag) :
    ∃ w, ruleEffect i (s.setEq v) = (ruleEffect i s).setEq w ∧
      ((∃ a b, i = .cmp a b) → w = (ruleEffect i s).eq) := by
  cases i with
  | cmp a b => exact ⟨_, rfl, fun _ => rfl⟩
  | jeq r => exact absurd rfl (hjeq r)
  | jne r => exact absurd rfl (hjne r)
  | _ => exact ⟨v, rfl, fun ⟨_, _, h⟩ => nomatch h⟩

/-- The answer of an instruction other than JEQ and JNE does not depend on EQ. -/
theorem agree_exec_setEq {i : Instr} (hjeq : ∀ r, i ≠ .jeq r) (hjne : ∀ r, i ≠ .jne r) (s : State) (v : EqFlag) :
    Agree (fun t u => SameRegs t u ∧ SameMemory t u ∧ ((∃ a b, i = .cmp a b) → t.eq = u.eq))
      (exec i s) (exec i (s.setEq v)) := by
  have herr : ruleError i (s.setEq v) = ruleError i s :=
    ruleError_congr rfl fun r hr => (hr.elim (hjeq r) (hjne r)).elim
  obtain ⟨w, heff, hw⟩ := ruleEffect_setEq hjeq hjne s v
  exact agree_of_ruleEffect herr rfl heff rfl rfl rfl
    ⟨fun _ => ⟨rfl, rfl⟩, fun _ => rfl, fun hcmp => (hw hcmp).symm⟩

/-- Settles O39: EQ in an instruction's effect, and a run of the instruction from two states that differ in EQ alone. -/
theorem flagSetAndReadAsListed : Obligations.FlagSetAndReadAsListed := by
  refine ⟨fun i s t h ht hi => ?_, fun a b s t h ht => ?_, fun i s v hjeq hjne => agree_exec_setEq hjeq hjne s v⟩
  · obtain ⟨-, rfl⟩ := eq_ruleEffect_of_notFaulted h ht
    exact ruleEffect_eq_of_ne_cmp hi s
  · obtain ⟨-, rfl⟩ := eq_ruleEffect_of_notFaulted h ht
    exact ruleEffect_cmp_eq_ne_unset a b s

end Sys2Proof.Machine
end

section
/-! SUPPORT. The output (R36): who adds to it, and that nothing reads it. -/

namespace Sys2Proof.Machine

theorem ruleEffect_out_of_ne_prn {i : Instr} (hi : ∀ r, i ≠ .prn r) (s : State) :
    (ruleEffect i s).out = s.out := by
  cases i with
  | prn r => exact absurd rfl (hi r)
  | jeq r => simp only [ruleEffect]; split <;> rfl
  | jne r => simp only [ruleEffect]; split <;> rfl
  | _ => rfl

theorem ruleEffect_prn_out (r : Byte) (s : State) :
    (ruleEffect (.prn r) s).out = s.out ++ [s.reg (operandReg r)] := rfl

/-- Effects from two states that differ in the output alone differ in the output alone. -/
theorem ruleEffect_with_out (i : Instr) (s : State) (o : List Byte) :
    ∃ o', ruleEffect i { s with out := o } = { ruleEffect i s with out := o' } := by
  cases i with
  | jeq r => simp only [ruleEffect]; split <;> exact ⟨_, rfl⟩
  | jne r => simp only [ruleEffect]; split <;> exact ⟨_, rfl⟩
  | _ => exact ⟨_, rfl⟩

/-- Settles O40: the output in an instruction's effect, and a run of the instruction from two states that differ in the
output alone. -/
theorem outputGrowsOnlyByPrn : Obligations.OutputGrowsOnlyByPrn := by
  refine ⟨rfl, fun i s t h hi => ?_, fun r s t h ht => ?_, fun i s o => ?_⟩
  · rcases exec_next_cases h with ⟨-, rfl⟩ | ⟨e, -, rfl⟩
    · exact ruleEffect_out_of_ne_prn hi s
    · exact s.raise_out e
  · obtain ⟨herr, rfl⟩ := eq_ruleEffect_of_notFaulted h ht
    exact ⟨operandReg r, toNat_eq_operandReg_of_operandError_none herr, ruleEffect_prn_out r s⟩
  · have herr : ruleError i { s with out := o } = ruleError i s := ruleError_congr rfl fun _ _ => rfl
    rcases exec_pair_cases herr with ⟨ht, hu⟩ | ⟨e, ht, hu⟩
    · obtain ⟨o', heff⟩ := ruleEffect_with_out i s o
      rw [heff] at hu
      exact ⟨_, _, ht, hu, rfl, fun _ => ⟨rfl, rfl, fun _ => ⟨rfl, rfl⟩, fun _ => rfl⟩⟩
    · exact ⟨_, _, ht, hu, rfl, fun hnf => absurd rfl (hnf e)⟩

end Sys2Proof.Machine
end

section
/-! SUPPORT. Memory access (R51, R52): what MemRead and MemWrite answer at an address that exists and at one that does
not, and what a write leaves unchanged. -/

namespace Sys2Proof.Machine

theorem State.memRead_of_lt (s : State) {a : Nat} (ha : a < 256) : s.memRead a = .ok (s.mem.get a) := if_pos ha

theorem State.memRead_of_ge (s : State) {a : Nat} (ha : 256 ≤ a) :
    s.memRead a = .error (.outOfBounds .memory a s.pc) := if_neg (not_lt.2 ha)

theorem State.memWrite_of_lt (s : State) {a : Nat} (ha : a < 256) (v : Byte) :
    s.memWrite a v = .ok (s.setMem (s.mem.set a v)) := if_pos ha

theorem State.memWrite_of_ge (s : State) {a : Nat} (ha : 256 ≤ a) (v : Byte) :
    s.memWrite a v = .error (.outOfBounds .memory a s.pc) := if_neg (not_lt.2 ha)

/-- MemRead of the address just written gives the byte written. -/
theorem State.memRead_setMem_set_same (s : State) {a : Nat} (ha : a < 256) (v : Byte) :
    (s.setMem (s.mem.set a v)).memRead a = .ok v := by
  rw [State.memRead_of_lt _ ha, State.setMem_mem, Memory.get_set, if_pos rfl]

theorem State.sameMemoryBut_setMem_set (s : State) (a : Nat) (v : Byte) :
    SameMemoryBut a s (s.setMem (s.mem.set a v)) := fun b hb => by
  rw [State.setMem_mem, Memory.get_set, if_neg hb]

theorem State.sameRegs_setMem (s : State) (m : Memory) : SameRegs s (s.setMem m) :=
  fun j => ⟨s.setMem_reg m j, s.setMem_isWritten m j⟩

/-- Settles O19: each access on the two sides of the bound 256, and a write's one cell with its frame. -/
theorem memoryReadsAndWrites : Obligations.MemoryReadsAndWrites := by
  refine ⟨fun s a ha => ?_, fun s a ha => ?_, fun s a v ha => ?_, fun s a v ha => ?_⟩
  · exact s.memRead_of_lt (Nat.lt_succ_of_le ha)
  · exact s.memRead_of_ge ha
  · have ha' : a < 256 := Nat.lt_succ_of_le ha
    exact ⟨_, s.memWrite_of_lt ha' v, s.memRead_setMem_set_same ha' v, s.sameMemoryBut_setMem_set a v,
      s.sameRegs_setMem _, rfl, rfl, rfl, rfl⟩
  · exact s.memWrite_of_ge ha v

end Sys2Proof.Machine
end

section
/-! SUPPORT. The dispatch lookup, and the decoder as the inverse of the encoder (R80, R81, R88, R89). Both sides are said
once over the rows: an instruction is a row with its operand bytes, its encoding is the row's opcode and the operand bytes
the row has. -/

namespace Sys2Proof

/-! ## The lookup -/

/-- Under an injective opcode map the lookup finds a row exactly at the row's opcode. -/
theorem lookupOpcode_eq_some_iff {m : OpcodeMap} (hm : Function.Injective m) {op : Byte} {k : Mnemonic} :
    lookupOpcode m op = some k ↔ m k = op := by
  refine ⟨lookupOpcode_some, fun hop => ?_⟩
  cases hk : lookupOpcode m op with
  | none => exact absurd hop (lookupOpcode_none.1 hk k)
  | some k' => rw [hm ((lookupOpcode_some hk).trans hop.symm)]

/-- Settles O4: the lookup in both directions, and the thirteen rows read off the table. -/
theorem lookupFindsTheRow : Obligations.LookupFindsTheRow :=
  ⟨fun _ hm _ _ => lookupOpcode_eq_some_iff hm, fun _ _ => lookupOpcode_none, by decide⟩

/-! ## The operand bytes of a row -/

/-- The operand bytes a row has, out of b1 and b2: as many as its width leaves after the opcode (R80). -/
def operandBytes (k : Mnemonic) (b1 b2 : Byte) : List Byte := [b1, b2].take (mnemonicWidth k - 1)

theorem encode_buildInstr (m : OpcodeMap) (k : Mnemonic) (b1 b2 : Byte) :
    encode m (buildInstr k b1 b2) = m k :: operandBytes k b1 b2 := by
  cases k <;> rfl

/-- Every instruction is its row with some operand bytes. -/
theorem exists_eq_buildInstr (i : Instr) : ∃ b1 b2, i = buildInstr (instrMnemonic i) b1 b2 := by
  cases i with
  | hlt | ret => exact ⟨0, 0, rfl⟩
  | prn r | push r | pop r | call r | jmp r | jeq r | jne r => exact ⟨r, 0, rfl⟩
  | ldi a b | add a b | mul a b | cmp a b => exact ⟨a, b, rfl⟩

theorem buildInstr_of_width_one {k : Mnemonic} (hw : mnemonicWidth k = 1) (b1 b2 : Byte) :
    buildInstr k b1 b2 = buildInstr k 0 0 := by
  cases k with
  | hlt | ret => rfl
  | _ => cases hw

theorem buildInstr_of_width_two {k : Mnemonic} (hw : mnemonicWidth k = 2) (b1 b2 : Byte) :
    buildInstr k b1 b2 = buildInstr k b1 0 := by
  cases k with
  | prn | push | pop | call | jmp | jeq | jne => rfl
  | _ => cases hw

/-! ## The decoder -/

/-- The decoder at an opcode takes the row's operand bytes and leaves what follows. -/
theorem decode_opcode_operandBytes {m : OpcodeMap} {op : Byte} {k : Mnemonic} (hk : lookupOpcode m op = some k)
    (b1 b2 : Byte) (rest : List Byte) :
    decode m (op :: (operandBytes k b1 b2 ++ rest)) = .ok (buildInstr k b1 b2, rest) := by
  rcases Machine.mnemonicWidth_cases k with hw | hw | hw
  · simp [decode, hk, operandBytes, hw, buildInstr_of_width_one hw b1 b2]
  · simp [decode, hk, operandBytes, hw, buildInstr_of_width_two hw b1 b2]
  · simp [decode, hk, operandBytes, hw]

/-- Bytes that decode are an opcode, the operand bytes of its row and the rest. -/
theorem decode_eq_ok {m : OpcodeMap} {bs : List Byte} {i : Instr} {rest : List Byte}
    (h : decode m bs = .ok (i, rest)) :
    ∃ k b1 b2, i = buildInstr k b1 b2 ∧ bs = m k :: (operandBytes k b1 b2 ++ rest) := by
  match bs with
  | [] => cases h
  | op :: tail =>
    cases hk : lookupOpcode m op with
    | none => simp [decode, hk] at h
    | some k =>
      obtain rfl := lookupOpcode_some hk
      refine ⟨k, ?_⟩
      rcases Machine.mnemonicWidth_cases k with hw | hw | hw
      · obtain ⟨rfl, rfl⟩ : buildInstr k 0 0 = i ∧ tail = rest := by simpa [decode, hk, hw] using h
        exact ⟨0, 0, rfl, by simp [operandBytes, hw]⟩
      · match tail with
        | [] => simp [decode, hk, hw] at h
        | b1 :: tail =>
          obtain ⟨rfl, rfl⟩ : buildInstr k b1 0 = i ∧ tail = rest := by simpa [decode, hk, hw] using h
          exact ⟨b1, 0, rfl, by simp [operandBytes, hw]⟩
      · match tail with
        | [] | [_] => simp [decode, hk, hw] at h
        | b1 :: b2 :: tail =>
          obtain ⟨rfl, rfl⟩ : buildInstr k b1 b2 = i ∧ tail = rest := by simpa [decode, hk, hw] using h
          exact ⟨b1, b2, rfl, by simp [operandBytes, hw]⟩

/-- Settles O1: the instruction's row is found at its opcode, and the row's operand bytes are read back. -/
theorem decodeInvertsEncode : Obligations.DecodeInvertsEncode := by
  intro m hm i rest
  obtain ⟨b1, b2, hi⟩ := exists_eq_buildInstr i
  rw [hi, encode_buildInstr, List.cons_append]
  exact decode_opcode_operandBytes ((lookupOpcode_eq_some_iff hm).2 rfl) b1 b2 rest

/-- Settles O2: the bytes that decode, taken apart into a row and its operand bytes, are what is assembled again. -/
theorem encodeInvertsDecode : Obligations.EncodeInvertsDecode := by
  intro m bs i rest h
  obtain ⟨k, b1, b2, rfl, rfl⟩ := decode_eq_ok h
  rw [encode_buildInstr, List.cons_append]

end Sys2Proof
end

section
/-! SUPPORT. The execution loop (R101, R105, R107): what a step answers when the machine is RUNNING and an instruction is
fetched, and when the machine is not RUNNING. -/

namespace Sys2Proof.Machine

/-- Bytes at the PC that decode to an instruction are what the fetch answers. -/
theorem State.fetch_of_decode_ok {m : OpcodeMap} {s : State} {i : Instr} {rest : List Byte}
    (h : decode m s.bytesAtPc = .ok (i, rest)) : s.fetch m = .ok i := by
  rw [State.fetch_eq_decode, h]

/-- A RUNNING machine that fetches an instruction dispatches it, with nothing around the dispatch (R105). -/
theorem stepWith_of_fetch_ok {m : OpcodeMap} {s : State} {i : Instr}
    (ex : Instr → State → Host.Outcome State Fault Refusal) (hr : s.run = .running) (hf : s.fetch m = .ok i) :
    stepWith m ex s = ex i s := by
  rw [stepWith, hr, hf]

/-- A HALTED or FAULTED machine has no step: what answers is a Host fault (log 5). -/
theorem step_eq_fault_of_not_running {s : State} (hr : s.run ≠ .running) : ∃ f, step s = .fault f := by
  rcases stepWith_cases coreConfig.opcodeMap exec s with
    ⟨-, hs⟩ | ⟨e, -, hs⟩ | ⟨_, hrun, -, -⟩ | ⟨_, hrun, -, -⟩
  · exact ⟨.noStepHalted, hs⟩
  · exact ⟨.noStepFaulted e, hs⟩
  · exact absurd hrun hr
  · exact absurd hrun hr

/-- A run of any machine stops at its first step when that step is a fault. -/
theorem run_succ_of_step_fault (M : Host.Core) {s : M.State} {f : M.Fault} (h : M.step s = .fault f) (n : Nat) :
    M.run (n + 1) s = .fault f := by
  rw [Host.Core.run, h]

/-- Settles O5: the fetch is the decoder on the bytes at the PC, and a fetched instruction is dispatched as it is. -/
theorem stepRunsTheDecodedInstruction : Obligations.StepRunsTheDecodedInstruction :=
  fun _ _ _ hr hd => stepWith_of_fetch_ok exec hr (State.fetch_of_decode_ok hd)

/-- Settles O8: the step is a fault, and every longer run stops at that fault. -/
theorem noStepUnlessRunning : Obligations.NoStepUnlessRunning := by
  intro s hr
  obtain ⟨f, hf⟩ := step_eq_fault_of_not_running hr
  refine ⟨fun t ht => ?_, fun n t ht => ?_⟩
  · cases hf.symm.trans ht
  · cases (run_succ_of_step_fault core hf n).symm.trans ht

end Sys2Proof.Machine
end

section
/-! SUPPORT. What every instruction's functional statement uses: what `exec` answers with and without an error, the
check of one register operand (R82), the frame of a register write (R26, R37), and the fetch of an instruction that
does not fit below address 256 (R104). -/

namespace Sys2Proof.Machine

/-! ## What an instruction answers -/

theorem exec_of_ruleError_none {i : Instr} {s : State} (h : ruleError i s = none) :
    exec i s = .next (ruleEffect i s) := by
  rw [exec_eq, h, Option.elim_none]

theorem State.raises_raise (s : State) (e : Error) : Raises s e (.next (s.raise e)) :=
  ⟨_, rfl, s.raise_run e, s.raise_out e⟩

theorem exec_raises {i : Instr} {s : State} {e : Error} (h : ruleError i s = some e) : Raises s e (exec i s) := by
  rw [exec_eq, h, Option.elim_some]
  exact s.raises_raise e

/-! ## One register operand -/

theorem operandError_of_eq (s : State) {b : Byte} {i : RegIndex} (h : b.toNat = i.val) : operandError s [b] = none :=
  if_pos (h ▸ i.isLt)

theorem operandError_of_ge (s : State) {b : Byte} (h : 8 ≤ b.toNat) :
    operandError s [b] = some (.outOfBounds .register b.toNat s.pc) :=
  if_neg (not_lt.2 h)

/-! ## A register write -/

theorem State.setReg_reg_same (s : State) (i : RegIndex) (v : Byte) : (s.setReg i v).reg i = v := by
  rw [State.setReg_reg, if_pos rfl]

theorem State.setReg_isWritten_same (s : State) (i : RegIndex) (v : Byte) :
    (s.setReg i v).isWritten i = Bool.true := by
  rw [State.setReg_isWritten, if_pos rfl]

theorem State.sameRegsBut_setReg (s : State) (i : RegIndex) (v : Byte) : SameRegsBut [i] s (s.setReg i v) := by
  intro j hj
  have hne : j ≠ i := List.ne_of_not_mem_cons hj
  rw [State.setReg_reg, State.setReg_isWritten, if_neg hne, if_neg hne]
  exact ⟨rfl, rfl⟩

/-! ## A fetch that runs past the end of memory -/

/-- The decoder at an opcode whose operand bytes are not all there. -/
theorem decode_missingOperand {m : OpcodeMap} {op : Byte} {k : Mnemonic} (hk : lookupOpcode m op = some k)
    {rest : List Byte} (hlen : rest.length + 1 < mnemonicWidth k) :
    decode m (op :: rest) = .error (.missingOperand k) := by
  rcases mnemonicWidth_cases k with hw | hw | hw
  · omega
  · obtain rfl : rest = [] := List.length_eq_zero_iff.1 (by omega)
    simp [decode, hk, hw]
  · match rest with
    | [] | [_] => simp [decode, hk, hw]
    | _ :: _ :: _ => simp only [List.length_cons] at hlen; omega

/-- At a PC in 0..255 the bytes are the opcode and the operand bytes below address 256, two at most. -/
theorem State.bytesAtPc_eq_cons {s : State} (hpc : s.pc ≤ 255) :
    ∃ rest, s.bytesAtPc = s.mem.get s.pc :: rest ∧ rest.length = min 2 (255 - s.pc) := by
  rcases s.bytesAtPc_cases with ⟨h, -⟩ | ⟨h, hb⟩ | ⟨h, hb⟩ | ⟨h, hb⟩
  · omega
  · exact ⟨[], h ▸ hb, by simp [h]⟩
  · exact ⟨[_], h ▸ hb, by simp [h]⟩
  · exact ⟨[_, _], hb, by simp only [List.length_cons, List.length_nil]; omega⟩

/-- The fetch of a row whose last byte would lie at 256 or above. -/
theorem State.fetch_of_past_end {m : OpcodeMap} {s : State} {k : Mnemonic}
    (hk : lookupOpcode m (s.mem.get s.pc) = some k) (hpc : s.pc ≤ 255) (hend : 256 < s.pc + mnemonicWidth k) :
    s.fetch m = .error (.outOfBounds .memory 256 s.pc) := by
  obtain ⟨rest, hbytes, hlen⟩ := State.bytesAtPc_eq_cons hpc
  have hw : mnemonicWidth k ≤ 3 := by have := mnemonicWidth_cases k; omega
  rw [State.fetch_eq_decode, hbytes, decode_missingOperand hk (by omega)]

/-- A RUNNING machine whose fetch raises commits only the error (R106). -/
theorem stepWith_of_fetch_error {m : OpcodeMap} {s : State} {e : Error}
    (ex : Instr → State → Host.Outcome State Fault Refusal) (hr : s.run = .running) (hf : s.fetch m = .error e) :
    stepWith m ex s = .next (s.raise e) := by
  rw [stepWith, hr, hf]

/-- Every row's fetch raises past the end; a row of one byte always fits. -/
theorem fetchRaisesPastTheEnd (k : Mnemonic) : FetchRaisesPastTheEnd k := by
  intro s hr hpc hop hend
  have hk : lookupOpcode coreConfig.opcodeMap (s.mem.get s.pc) = some k :=
    (lookupOpcode_eq_some_iff ls8OpcodeMap_injective).2 hop.symm
  rw [step, stepWith_of_fetch_error exec hr (State.fetch_of_past_end hk hpc hend)]
  exact s.raises_raise _

end Sys2Proof.Machine
end

section
/-! SUPPORT. HLT and LDI (R130, R131). -/

namespace Sys2Proof.Machine

/-- LDI with a byte that names register `i` writes the immediate to it and goes on 3 bytes. -/
theorem exec_ldi_of_eq (s : State) {r : Byte} {i : RegIndex} (h : r.toNat = i.val) (imm : Byte) :
    exec (.ldi r imm) s = .next ((s.setReg i imm).advance 3) := by
  rw [exec_of_ruleError_none (show ruleError (.ldi r imm) s = none from operandError_of_eq s h), ruleEffect,
    operandReg_of_eq h]

/-- Settles O23: the register write with its frame, the check of the operand byte, and the fetch at 254 and 255. -/
theorem ldiLoadsTheImmediate : Obligations.LdiLoadsTheImmediate := by
  refine ⟨fun _ _ _ => rfl, fun s r imm i hr => ?_, fun s r imm hr => ?_, fetchRaisesPastTheEnd .ldi⟩
  · exact ⟨_, exec_ldi_of_eq s hr imm, s.setReg_reg_same i imm, s.setReg_isWritten_same i imm,
      s.sameRegsBut_setReg i imm, rfl, rfl, rfl, rfl, fun _ => rfl⟩
  · exact exec_raises (operandError_of_ge s hr)

/-- Settles O22: HLT raises nothing, its effect is HALTED and pc + 1, and a HALTED machine has no step. -/
theorem hltHalts : Obligations.HltHalts := by
  refine ⟨fun _ => rfl, fun s => ⟨s.halt.advance 1, exec_of_ruleError_none rfl, rfl, rfl, fun _ => ⟨rfl, rfl⟩, rfl,
    fun _ => rfl, rfl, ?_, rfl⟩⟩
  have hhalted : (s.halt.advance 1).run ≠ .running := nofun
  exact (noStepUnlessRunning _ hhalted).1

end Sys2Proof.Machine
end

section
/-! SUPPORT. The ALU's sum and product (R151, R152). -/

namespace Sys2Proof.Machine

theorem wrap8_toNat (v : Nat) : (wrap8 v).toNat = v % 256 := BitVec.toNat_ofNat v 8

theorem aluResult_add_toNat (a b : Byte) : (aluResult .add a b).toNat = (a.toNat + b.toNat) % 256 :=
  wrap8_toNat (a.toNat + b.toNat)

theorem aluResult_mul_toNat (a b : Byte) : (aluResult .mul a b).toNat = (a.toNat * b.toNat) % 256 :=
  wrap8_toNat (a.toNat * b.toNat)

/-- Settles O20: the ALU wraps the sum and the product of the unsigned operands to a byte, which is `mod 256` (R7). -/
theorem aluWrapsModulo256 : Obligations.AluWrapsModulo256 := fun a b =>
  ⟨aluResult_add_toNat a b, aluResult_mul_toNat a b⟩

end Sys2Proof.Machine
end

section
/-! SUPPORT. RET (R192): the byte at SP becomes the PC, and SP goes up by one, modulo 256 (R27). -/

namespace Sys2Proof.Machine

/-- Byte arithmetic on SP is `wrap8` of the unbounded sum (R7, R27). -/
theorem State.incSp_sp_eq_wrap8 (s : State) : s.incSp.sp = wrap8 (s.sp.toNat + 1) := by
  rw [State.incSp_sp]
  apply BitVec.eq_of_toNat_eq
  rw [wrap8_toNat]
  exact BitVec.toNat_add s.sp 1

theorem State.incSp_isWritten_spIndex (s : State) : s.incSp.isWritten spIndex = Bool.true :=
  s.setReg_isWritten_same spIndex _

theorem State.sameRegsBut_incSp (s : State) : SameRegsBut [spIndex] s s.incSp :=
  s.sameRegsBut_setReg spIndex _

/-- RET raises nothing in any state: a byte always names an address that exists. -/
theorem exec_ret (s : State) : exec .ret s = .next (s.jump (s.mem.get s.sp.toNat)).incSp :=
  exec_of_ruleError_none rfl

/-- Settles O33: RET answers its effect, a jump to the byte at SP and then the increment of SP, each with its frame. -/
theorem retReturns : Obligations.RetReturns := by
  refine ⟨fun _ => rfl, fun s => ?_⟩
  have hregs := (s.jump (s.mem.get s.sp.toNat)).sameRegsBut_incSp
  exact ⟨_, exec_ret s, rfl, State.incSp_sp_eq_wrap8 _, State.incSp_isWritten_spIndex _, hregs, fun _ => rfl,
    rfl, rfl, rfl⟩

end Sys2Proof.Machine
end

section
/-! SUPPORT. JMP (R193), and the read of an unwritten register operand under `gprInit = none` (R231). -/

namespace Sys2Proof.Machine

/-- A rule's error is what the parametric machine raises (R106). -/
theorem execUnder_raises {cfg : Config} {i : Instr} {s : State} {e : Error} (h : ruleOf cfg i s = .error e) :
    Raises s e (execUnder cfg i s) := by
  rw [execUnder, h, commit_error]
  exact s.raises_raise e

/-- With no reset values, a register operand that has not been written is an error where it is read (R37, R231). -/
theorem State.readOperand_of_unwritten {cfg : Config} (hcfg : cfg.gprInit = none) {s : State} {b : Byte}
    {i : RegIndex} (hb : b.toNat = i.val) (hw : s.isWritten i = Bool.false) :
    s.readOperand cfg b = .error (.unwrittenRegister i) := by
  simp [State.readOperand, s.regIndex_of_eq hb, State.checkWritten_of_none hcfg, hw]

theorem jumpRule_of_readOperand_error {cfg : Config} {r : Byte} {s : State} {e : Error}
    (h : s.readOperand cfg r = .error e) : jumpRule cfg r s = .error e := by
  rw [jumpRule, h, except_error_bind]

/-- JMP with a byte that names register `i` jumps to that register's byte. -/
theorem exec_jmp_of_eq (s : State) {r : Byte} {i : RegIndex} (h : r.toNat = i.val) :
    exec (.jmp r) s = .next (s.jump (s.reg i)) := by
  rw [exec_of_ruleError_none (show ruleError (.jmp r) s = none from operandError_of_eq s h), ruleEffect,
    operandReg_of_eq h]

/-- Settles O35: the jump with its frame, the check of the operand byte, the unwritten operand, and the fetch at 255. -/
theorem jmpJumps : Obligations.JmpJumps := by
  refine ⟨fun _ _ => rfl, fun s r i hr => ?_, fun s r hr => ?_, fun cfg s r i hcfg hr hw => ?_,
    fetchRaisesPastTheEnd .jmp⟩
  · exact ⟨_, exec_jmp_of_eq s hr, rfl, fun _ => ⟨rfl, rfl⟩, fun _ => rfl, rfl, rfl, rfl⟩
  · exact exec_raises (operandError_of_ge s hr)
  · exact execUnder_raises (jumpRule_of_readOperand_error (State.readOperand_of_unwritten hcfg hr hw))

end Sys2Proof.Machine
end

section
/-! SUPPORT. The rules under any parameters, said once: a rule raises the error `ruleErrorUnder` names, or else has the
effect `ruleEffect` gives, the same on every machine. The parameters decide only which errors there are (R196, R231). -/

namespace Sys2Proof.Machine

/-! ## The errors the parameters add -/

/-- The error of the first operand register not yet written, where there are no reset values (R231). -/
def unwrittenError (cfg : Config) (s : State) : List Byte → Option Error
  | [] => none
  | b :: bs =>
    if cfg.gprInit.isNone && !s.isWritten (operandReg b) then some (.unwrittenRegister (operandReg b))
    else unwrittenError cfg s bs

/-- The error of reading the flag (R196). -/
def flagError (cfg : Config) (s : State) : Option Error :=
  if s.eq = .unset ∧ cfg.unsetPolicy = .fault then some (.unsetFlag s.pc) else none

/-- The error of register operands that a rule reads: all the indices first, then the written checks (R225). -/
def readError (cfg : Config) (s : State) (bs : List Byte) : Option Error :=
  (operandError s bs).or (unwrittenError cfg s bs)

/-- The operands whose register an instruction reads in a state: a branch not taken reads none (D7). -/
def operandsRead (i : Instr) (s : State) : List Byte :=
  match i with
  | .jeq r => if s.eq = .true then [r] else []
  | .jne r => if s.eq = .true then [] else [r]
  | _ => regsRead i

/-- The flag's error for the two instructions that read it. -/
def branchFlagError (cfg : Config) (i : Instr) (s : State) : Option Error :=
  match i with
  | .jeq _ | .jne _ => flagError cfg s
  | _ => none

/-- The one error an instruction's rule raises under given parameters, or none, in the order of R225: the flag (item 4),
the operands and the return address (5 and 6), the unwritten registers (7). -/
def ruleErrorUnder (cfg : Config) (i : Instr) (s : State) : Option Error :=
  (branchFlagError cfg i s).or ((ruleError i s).or (unwrittenError cfg s (operandsRead i s)))

/-! ## The shared operations under any parameters -/

theorem State.checkWritten_eq (cfg : Config) (s : State) (b : Byte) :
    s.checkWritten cfg (operandReg b) = (unwrittenError cfg s [b]).elim (.ok ()) .error := by
  simp only [State.checkWritten, unwrittenError]
  split_ifs <;> rfl

theorem unwrittenError_pair (cfg : Config) (s : State) (a b : Byte) :
    unwrittenError cfg s [a, b] = (unwrittenError cfg s [a]).or (unwrittenError cfg s [b]) := by
  simp only [unwrittenError]
  split_ifs <;> rfl

theorem State.readOperand_eq (cfg : Config) (s : State) (b : Byte) :
    s.readOperand cfg b = (readError cfg s [b]).elim (.ok (operandReg b)) .error := by
  simp only [State.readOperand, readError, State.regIndex_eq]
  cases operandError s [b] with
  | some e => rfl
  | none =>
    simp only [Option.elim_none, except_ok_bind, State.checkWritten_eq, Option.none_or]
    cases unwrittenError cfg s [b] <;> rfl

theorem State.readOperands_eq (cfg : Config) (s : State) (a b : Byte) :
    s.readOperands cfg a b = (readError cfg s [a, b]).elim (.ok (operandReg a, operandReg b)) .error := by
  simp only [State.readOperands, readError, State.regIndex_eq, operandError_pair, unwrittenError_pair]
  cases operandError s [a] with
  | some e => rfl
  | none =>
    cases operandError s [b] with
    | some e => rfl
    | none =>
      simp only [Option.elim_none, except_ok_bind, State.checkWritten_eq, Option.none_or]
      cases unwrittenError cfg s [a] <;> cases unwrittenError cfg s [b] <;> rfl

theorem State.flagRead_eq (cfg : Config) (s : State) :
    s.flagRead cfg = (flagError cfg s).elim (.ok (decide (s.eq = .true))) .error := by
  unfold State.flagRead flagError
  cases s.eq with
  | unset => cases cfg.unsetPolicy <;> rfl
  | _ => rfl

theorem jumpRule_eq (cfg : Config) (r : Byte) (s : State) :
    jumpRule cfg r s = (readError cfg s [r]).elim (.ok (s.jump (s.reg (operandReg r)))) .error := by
  rw [jumpRule, State.readOperand_eq]
  cases readError cfg s [r] <;> rfl

theorem aluWriteRule_eq (cfg : Config) (op : AluOp) (a b : Byte) (s : State) :
    aluWriteRule cfg op a b s = (readError cfg s [a, b]).elim
      (.ok ((s.setReg (operandReg a) (aluResult op (s.reg (operandReg a)) (s.reg (operandReg b)))).advance 3))
      .error := by
  rw [aluWriteRule, State.readOperands_eq]
  cases readError cfg s [a, b] <;> rfl

/-! ## The rules -/

/-- Under any parameters a rule raises the first error R225 lists for it, or else has its effect. -/
theorem ruleOf_eq (cfg : Config) (i : Instr) (s : State) :
    ruleOf cfg i s = (ruleErrorUnder cfg i s).elim (.ok (ruleEffect i s)) .error := by
  cases i with
  | hlt => rfl
  | ret =>
    change retRule cfg s = .ok (ruleEffect .ret s)
    simp [retRule, ruleEffect]
  | add a b => exact aluWriteRule_eq cfg .add a b s
  | mul a b => exact aluWriteRule_eq cfg .mul a b s
  | jmp r => exact jumpRule_eq cfg r s
  | ldi r imm =>
    simp only [ruleOf, ldiRule, State.regIndex_eq, ruleErrorUnder, ruleError]
    cases operandError s [r] <;> rfl
  | prn r =>
    change prnRule cfg r s = (readError cfg s [r]).elim _ _
    rw [prnRule, State.readOperand_eq]
    cases readError cfg s [r] <;> rfl
  | cmp a b =>
    change cmpRule cfg a b s = (readError cfg s [a, b]).elim _ _
    rw [cmpRule, State.readOperands_eq]
    cases readError cfg s [a, b] <;> rfl
  | push r =>
    change pushRule cfg r s = (readError cfg s [r]).elim _ _
    rw [pushRule, State.readOperand_eq]
    cases readError cfg s [r] with
    | none => simp [ruleEffect]
    | some e => rfl
  | pop r =>
    simp only [ruleOf, popRule, State.regIndex_eq, State.memRead_byte, ruleErrorUnder, ruleError]
    cases operandError s [r] <;> rfl
  | call r =>
    simp only [ruleOf, callRule, State.regIndex_eq, State.memWrite_byte, ruleErrorUnder, ruleError]
    cases operandError s [r] with
    | some e => rfl
    | none =>
      by_cases hret : s.pc + 2 ≤ 255
      · cases hw : unwrittenError cfg s [r] <;>
          simp [hret, show ¬ 255 < s.pc + 2 by omega, ruleEffect, branchFlagError, State.checkWritten_eq, operandsRead,
            regsRead, hw]
      · simp [hret, show 255 < s.pc + 2 by omega, branchFlagError]
  | jeq r =>
    simp only [ruleOf, jeqRule, branchRule, State.flagRead_eq, jumpRule_eq, ruleErrorUnder, branchFlagError, ruleError,
      operandsRead, ruleEffect]
    cases flagError cfg s with
    | some e => rfl
    | none => by_cases hf : s.eq = .true <;> simp [hf, readError, unwrittenError]
  | jne r =>
    simp only [ruleOf, jneRule, branchRule, State.flagRead_eq, jumpRule_eq, ruleErrorUnder, branchFlagError, ruleError,
      operandsRead, ruleEffect]
    cases flagError cfg s with
    | some e => rfl
    | none => by_cases hf : s.eq = .true <;> simp [hf, readError, unwrittenError]

/-- What a next state of an instruction is under any parameters: the effect, or the state before with the one error
recorded (R106). -/
theorem execUnder_next_cases {cfg : Config} {i : Instr} {s t : State} (h : execUnder cfg i s = .next t) :
    (ruleErrorUnder cfg i s = none ∧ t = ruleEffect i s) ∨
      ∃ e, ruleErrorUnder cfg i s = some e ∧ t = s.raise e := by
  rw [execUnder, ruleOf_eq] at h
  cases he : ruleErrorUnder cfg i s with
  | none => exact .inl ⟨rfl, by simpa [he] using h.symm⟩
  | some e => exact .inr ⟨e, rfl, by simpa [he] using h.symm⟩

theorem execUnder_raises_of_ruleErrorUnder {cfg : Config} {i : Instr} {s : State} {e : Error}
    (h : ruleErrorUnder cfg i s = some e) : Raises s e (execUnder cfg i s) :=
  execUnder_raises (by rw [ruleOf_eq, h, Option.elim_some])

end Sys2Proof.Machine
end

section
/-! SUPPORT. What an instruction's effect leaves in the PC, memory, the written marks and the loop state, and with it
the invariant (R30, R50, R37). -/

namespace Sys2Proof.Machine

/-- The new PC is that of the next instruction or a byte. -/
theorem ruleEffect_pc_cases (i : Instr) (s : State) :
    (ruleEffect i s).pc = s.pc + instrWidth i ∨ ∃ v : Byte, (ruleEffect i s).pc = v.toNat := by
  cases i with
  | call r | ret | jmp r => exact .inr ⟨_, rfl⟩
  | jeq r =>
    simp only [ruleEffect]
    split
    · exact .inr ⟨_, rfl⟩
    · exact .inl rfl
  | jne r =>
    simp only [ruleEffect]
    split
    · exact .inl rfl
    · exact .inr ⟨_, rfl⟩
  | _ => exact .inl rfl

/-- Only PUSH and CALL write memory. -/
theorem ruleEffect_mem_of_not_store {i : Instr} (hpush : ∀ r, i ≠ .push r) (hcall : ∀ r, i ≠ .call r) (s : State) :
    (ruleEffect i s).mem = s.mem := by
  cases i with
  | push r => exact absurd rfl (hpush r)
  | call r => exact absurd rfl (hcall r)
  | jeq r | jne r => simp only [ruleEffect]; split <;> rfl
  | _ => rfl

/-- An effect leaves memory or writes one byte at the decremented SP. -/
theorem ruleEffect_mem_cases (i : Instr) (s : State) :
    (ruleEffect i s).mem = s.mem ∨ ∃ v, (ruleEffect i s).mem = s.mem.set s.decSp.sp.toNat v := by
  cases i with
  | push r | call r => exact .inr ⟨_, rfl⟩
  | _ => exact .inl (ruleEffect_mem_of_not_store (by simp) (by simp) s)

/-- A written register stays written (R37). -/
theorem ruleEffect_keeps_written {i : Instr} {s : State} {j : RegIndex} (h : s.isWritten j = Bool.true) :
    (ruleEffect i s).isWritten j = Bool.true := by
  cases i with
  | ldi | add | mul | push | pop | call | ret => simp [ruleEffect, h]
  | jeq r | jne r => simp only [ruleEffect]; split <;> exact h
  | _ => exact h

theorem ruleEffect_run_of_ne_hlt {i : Instr} (hi : i ≠ .hlt) (s : State) : (ruleEffect i s).run = s.run := by
  cases i with
  | hlt => exact absurd rfl hi
  | jeq r | jne r => simp only [ruleEffect]; split <;> rfl
  | _ => rfl

/-! ## The invariant -/

/-- The effect of an instruction whose bytes lie in memory keeps the invariant. -/
theorem ruleEffect_inv {i : Instr} {s : State} (hfit : s.pc + instrWidth i ≤ 256) (h : s.Inv) :
    (ruleEffect i s).Inv := by
  obtain ⟨-, hmem, hsp⟩ := h
  refine ⟨?_, ?_, ruleEffect_keeps_written hsp⟩
  · rcases ruleEffect_pc_cases i s with hpc | ⟨v, hpc⟩
    · exact hpc ▸ hfit
    · exact hpc ▸ v.isLt.le
  · rcases ruleEffect_mem_cases i s with hm | ⟨v, hm⟩
    · exact hm ▸ hmem
    · exact hm ▸ Memory.wf_set hmem s.decSp.sp.isLt v

/-- The bytes of a fetched instruction lie in memory (R104). -/
theorem State.fetch_ok_fits {m : OpcodeMap} {s : State} {i : Instr} (h : s.fetch m = .ok i) :
    s.pc + instrWidth i ≤ 256 := by
  obtain ⟨-, k, b1, b2, -, rfl, hfit⟩ := State.fetch_ok h
  rwa [instrWidth, instrMnemonic_buildInstr]

/-- A step that answers a next state ran on a RUNNING machine, and is the fetch's error or the dispatched instruction's
answer (R101, R107). -/
theorem stepWith_next_cases {m : OpcodeMap} {ex : Instr → State → Host.Outcome State Fault Refusal} {s t : State}
    (h : stepWith m ex s = .next t) :
    s.run = .running ∧ ((∃ e, s.fetch m = .error e ∧ t = s.raise e) ∨ ∃ i, s.fetch m = .ok i ∧ ex i s = .next t) := by
  rcases stepWith_cases m ex s with ⟨-, hs⟩ | ⟨e, -, hs⟩ | ⟨e, hr, hf, hs⟩ | ⟨i, hr, hf, hs⟩ <;> rw [hs] at h
  · cases h
  · cases h
  · exact ⟨hr, .inl ⟨e, hf, by cases h; rfl⟩⟩
  · exact ⟨hr, .inr ⟨i, hf, h⟩⟩

/-- The invariant says nothing of the loop state, so recording an error keeps it. -/
theorem State.raise_inv {s : State} (h : s.Inv) (e : Error) : (s.raise e).Inv := h

theorem stepUnder_keeps_inv {cfg : Config} {s t : State} (hinv : s.Inv) (h : stepUnder cfg s = .next t) : t.Inv := by
  obtain ⟨-, ⟨e, -, rfl⟩ | ⟨i, hf, hex⟩⟩ := stepWith_next_cases h
  · exact State.raise_inv hinv e
  · rcases execUnder_next_cases hex with ⟨-, rfl⟩ | ⟨e, -, rfl⟩
    · exact ruleEffect_inv (State.fetch_ok_fits hf) hinv
    · exact State.raise_inv hinv e

/-- Settles O16: an error is recorded on the state before, and an effect moves the PC past bytes that lie in memory or
to a byte, writes memory at most at a byte address, and unmarks no written register. -/
theorem stepKeepsInv : Obligations.StepKeepsInv :=
  ⟨fun s _ hinv h => stepUnder_keeps_inv hinv (step_eq_stepUnder s ▸ h), fun _ _ _ => stepUnder_keeps_inv⟩

end Sys2Proof.Machine
end

section
/-! SUPPORT. Reset and the load (R38, R54, R223, R250). -/

namespace Sys2Proof.Machine

/-! ## Reset -/

/-- R0..R6 hold what `gprInit` gives. -/
theorem State.resetUnder_reg (cfg : Config) (j : Fin 7) :
    (State.resetUnder cfg).reg j.castSucc = cfg.gprInit.getD (fun _ => 0) j := by
  fin_cases j <;> rfl

/-- R0..R6 are written exactly when `gprInit` gives values. -/
theorem State.resetUnder_isWritten (cfg : Config) (j : Fin 7) :
    (State.resetUnder cfg).isWritten j.castSucc = cfg.gprInit.isSome := by
  fin_cases j <;> rfl

theorem val_lt_of_ne_spIndex {i : RegIndex} (hi : i ≠ spIndex) : i.val < 7 := by
  have hne : i.val ≠ 7 := fun h => hi (Fin.ext h)
  omega

/-- Settles O12: each field as reset writes it, R0..R6 through `gprInit`. -/
theorem resetLeavesTheListedValues : Obligations.ResetLeavesTheListedValues := by
  intro cfg
  refine ⟨fun _ => rfl, rfl, rfl, rfl, rfl, rfl, rfl, fun init hinit i hi => ⟨?_, ?_⟩, fun hnone i hi => ?_⟩
  · rw [← Option.getD_some (a := init) (b := fun _ => 0), ← hinit]
    exact State.resetUnder_reg cfg ⟨i.val, hi⟩
  · rw [← Option.isSome_some (a := init), ← hinit]
    exact State.resetUnder_isWritten cfg ⟨i.val, hi⟩
  · rw [← Option.isSome_none (α := Fin 7 → Byte), ← hnone]
    exact State.resetUnder_isWritten cfg ⟨i.val, val_lt_of_ne_spIndex hi⟩

theorem State.resetUnder_inv (cfg : Config) : (State.resetUnder cfg).Inv :=
  ⟨Nat.zero_le 256, Memory.wf_nil, rfl⟩

/-- Settles O14: PC 0, no memory entry, and SP marked written. -/
theorem resetMeetsInv : Obligations.ResetMeetsInv :=
  ⟨State.resetUnder_inv coreConfig, State.resetUnder_inv⟩

/-! ## The load -/

theorem loadUnder_of_le (cfg : Config) {bs : List Byte} (h : bs.length ≤ 256) :
    loadUnder cfg (some bs) = .ok ((State.resetUnder cfg).placeBytes 0 bs) := if_pos h

theorem loadUnder_of_gt (cfg : Config) {bs : List Byte} (h : 256 < bs.length) :
    loadUnder cfg (some bs) = .error (.tooLong bs.length) := if_neg (not_le.2 h)

/-- What a load makes is reset with a program of at most 256 bytes placed at address 0. -/
theorem loadUnder_ok {cfg : Config} {p : Option (List Byte)} {s : State} (h : loadUnder cfg p = .ok s) :
    ∃ bs, bs.length ≤ 256 ∧ s = (State.resetUnder cfg).placeBytes 0 bs := by
  cases p with
  | none => cases h
  | some bs =>
    by_cases hlen : bs.length ≤ 256
    · rw [loadUnder_of_le cfg hlen] at h
      exact ⟨bs, hlen, (Except.ok.inj h).symm⟩
    · rw [loadUnder_of_gt cfg (not_le.1 hlen)] at h
      cases h

/-- Placing bytes keeps the invariant: it changes memory alone, and keeps its canonical form. -/
theorem State.placeBytes_inv {s : State} (h : s.Inv) (a : Nat) (bs : List Byte) : (s.placeBytes a bs).Inv := by
  obtain ⟨hpc, hmem, hsp⟩ := h
  have hwf := State.placeBytes_wf hmem a bs
  rw [State.placeBytes_eq]
  exact ⟨hpc, hwf, hsp⟩

/-- Settles O15: the program is placed in the state reset leaves. -/
theorem loadedMachineMeetsInv : Obligations.LoadedMachineMeetsInv := by
  intro cfg p s h
  obtain ⟨bs, -, rfl⟩ := loadUnder_ok h
  exact State.placeBytes_inv (State.resetUnder_inv cfg) 0 bs

/-- After a load at address 0 an address in 0..255 reads the program's byte there, or 0 past its end. -/
theorem State.placeBytes_reset_get {bs : List Byte} (hlen : bs.length ≤ 256) (k : Nat) :
    (State.reset.placeBytes 0 bs).mem.get k = bs[k]?.getD 0 := by
  rw [State.placeBytes_get, Nat.sub_zero]
  by_cases hk : k < 256
  · exact if_pos ⟨Nat.zero_le k, hk⟩
  · rw [if_neg fun h => hk h.2, List.getElem?_eq_none (by omega)]
    rfl

/-- Settles O13: every address after the bytes are placed, the two refusals, and that placing changes memory alone. -/
theorem loadPlacesTheProgram : Obligations.LoadPlacesTheProgram := by
  refine ⟨fun bs hlen => ⟨_, loadUnder_of_le coreConfig hlen, fun k hk => ?_, fun k hk => ?_, ?_⟩,
    fun bs hlen => loadUnder_of_gt coreConfig hlen, rfl⟩
  · rw [← State.reset, State.placeBytes_reset_get hlen, List.getElem?_eq_getElem hk, Option.getD_some]
  · rw [← State.reset, State.placeBytes_reset_get hlen, List.getElem?_eq_none hk, Option.getD_none]
  · rw [State.placeBytes_eq]
    rfl

end Sys2Proof.Machine
end

section
/-! SUPPORT. The loop (R101, R102, R107, R113): the errors of a fetch, the loop state after a step, and a run under
fuel. -/

namespace Sys2Proof.Machine

/-! ## A fetch that raises -/

theorem step_raises_of_fetch_error {s : State} {e : Error} (hr : s.run = .running)
    (hf : s.fetch coreConfig.opcodeMap = .error e) : Raises s e (step s) := by
  rw [step, stepWith_of_fetch_error exec hr hf]
  exact s.raises_raise e

/-- Settles O6: the fetch is the decoder on the bytes at the PC, and its error is the step's. -/
theorem stepRaisesWhatDecodeRefuses : Obligations.StepRaisesWhatDecodeRefuses := by
  refine fun s hr => ⟨fun hd => ?_, fun op hd => ?_, fun k hd => ?_⟩ <;>
    exact step_raises_of_fetch_error hr (by rw [State.fetch_eq_decode, hd])

theorem decode_unknownOpcode {m : OpcodeMap} {op : Byte} (hop : ∀ k, m k ≠ op) (rest : List Byte) :
    decode m (op :: rest) = .error (.unknownOpcode op) := by
  rw [decode, lookupOpcode_none.2 hop]

theorem State.fetch_of_unknown {m : OpcodeMap} {s : State} (hpc : s.pc ≤ 255) (hop : ∀ k, m k ≠ s.mem.get s.pc) :
    s.fetch m = .error (.unknownOpcode (s.mem.get s.pc) s.pc) := by
  obtain ⟨rest, hbytes, -⟩ := State.bytesAtPc_eq_cons hpc
  rw [State.fetch_eq_decode, hbytes, decode_unknownOpcode hop]

theorem observe_of_raises {s : State} {e : Error} {o : Host.Outcome State Fault Refusal} (h : Raises s e o) :
    ∃ t, o = .next t ∧ observe t = some { out := s.out, error := some e, status := .nonZero } := by
  obtain ⟨t, rfl, hrun, hout⟩ := h
  exact ⟨t, rfl, by rw [observe, hrun, hout]⟩

/-- Settles O7: the byte at the PC is looked up and not found; a loaded program's first byte is at address 0, where the
PC is at reset. -/
theorem unknownOpcodeIsRaised : Obligations.UnknownOpcodeIsRaised := by
  refine ⟨fun s op hr hpc hget hop => ?_, fun op bs hop hlen => ?_⟩
  · subst hget
    exact step_raises_of_fetch_error hr (State.fetch_of_unknown hpc hop)
  · have hload := loadUnder_of_le coreConfig hlen
    have hget : (State.reset.placeBytes 0 (op :: bs)).mem.get 0 = op := State.placeBytes_reset_get hlen 0
    rw [← State.reset] at hload
    generalize hs : State.reset.placeBytes 0 (op :: bs) = s at hload hget
    obtain ⟨hr, hpc, hout⟩ : s.run = .running ∧ s.pc = 0 ∧ s.out = [] := by
      rw [← hs, State.placeBytes_eq]
      exact ⟨rfl, rfl, rfl⟩
    have hfetch : s.fetch coreConfig.opcodeMap = .error (.unknownOpcode op 0) := by
      rw [State.fetch_of_unknown (by omega) (by rwa [hpc, hget]), hpc, hget]
    obtain ⟨t, ht, hobs⟩ := observe_of_raises (step_raises_of_fetch_error hr hfetch)
    exact ⟨s, t, hload, ht, hout ▸ hobs⟩

/-! ## The loop state after a step -/

/-- A step either raises, in the fetch or in the rule, or has the effect of the instruction fetched. -/
theorem step_next_cases {s t : State} (h : step s = .next t) :
    (∃ e, t = s.raise e ∧ (s.fetch coreConfig.opcodeMap = .error e ∨
      ∃ i, s.fetch coreConfig.opcodeMap = .ok i ∧ ruleError i s = some e)) ∨
    ∃ i, s.fetch coreConfig.opcodeMap = .ok i ∧ ruleError i s = none ∧ t = ruleEffect i s := by
  obtain ⟨-, ⟨e, hf, rfl⟩ | ⟨i, hf, hex⟩⟩ := stepWith_next_cases h
  · exact .inl ⟨e, rfl, .inl hf⟩
  · rcases exec_next_cases hex with ⟨herr, rfl⟩ | ⟨e, herr, rfl⟩
    · exact .inr ⟨i, hf, herr, rfl⟩
    · exact .inl ⟨e, rfl, .inr ⟨i, hf, herr⟩⟩

theorem step_next_running {s t : State} (h : step s = .next t) : s.run = .running := (stepWith_next_cases h).1

/-- Settles O9: after an error the machine is FAULTED, after HLT's effect HALTED, and after any other effect RUNNING. -/
theorem runStateChangesAsListed : Obligations.RunStateChangesAsListed := by
  intro s t h
  have hr := step_next_running h
  refine ⟨hr, ?_⟩
  rcases step_next_cases h with ⟨e, rfl, hf | ⟨i, hf, herr⟩⟩ | ⟨i, hf, herr, rfl⟩
  · simp [hf]
  · have hne : i ≠ .hlt := by rintro rfl; cases herr
    simp [hf, hne, herr]
  · by_cases hi : i = .hlt
    · subst hi
      simp [hf, ruleEffect]
    · simp [hf, hi, herr, ruleEffect_run_of_ne_hlt hi, hr]

/-- Settles O18: HLT's effect is a HALTED state with the output kept, and an error is recorded with the output kept. -/
theorem endOfRunIsObserved : Obligations.EndOfRunIsObserved := by
  intro s t h
  refine ⟨?_, fun hf => ?_, fun e ht => ?_⟩
  · unfold observe
    cases t.run <;> simp
  · rcases step_next_cases h with ⟨e, -, hf' | ⟨i, hf', herr⟩⟩ | ⟨i, hf', -, rfl⟩ <;> rw [hf] at hf'
    · cases hf'
    · cases hf'
      cases herr
    · cases hf'
      exact ⟨rfl, rfl⟩
  · have hout : t.out = s.out := by
      rcases step_next_cases h with ⟨e', rfl, -⟩ | ⟨i, -, -, rfl⟩
      · rfl
      · by_cases hi : i = .hlt
        · subst hi
          cases ht
        · rw [ruleEffect_run_of_ne_hlt hi, step_next_running h] at ht
          cases ht
    exact ⟨by rw [observe, ht, hout], congrArg exitStatus ht⟩

/-! ## The errors of a rule -/

/-- An effect on a RUNNING machine records no error. -/
theorem ruleEffect_notFaulted {s : State} (hr : s.run = .running) (i : Instr) : (ruleEffect i s).NotFaulted := by
  intro e he
  by_cases hi : i = .hlt
  · subst hi
    cases he
  · rw [ruleEffect_run_of_ne_hlt hi, hr] at he
    cases he

/-- Settles O10: `exec` raises the error `ruleError` names, and an effect records none. -/
theorem errorsRaisedExactlyAsListed : Obligations.ErrorsRaisedExactlyAsListed := by
  intro i s e hr
  refine ⟨fun ⟨t, ht, hrun⟩ => ?_, fun herr => ?_⟩
  · rcases exec_next_cases ht with ⟨-, rfl⟩ | ⟨e', herr, rfl⟩
    · exact absurd hrun (ruleEffect_notFaulted hr i e)
    · rw [herr, RunState.faulted.inj hrun]
  · obtain ⟨t, ht, hrun, -⟩ := exec_raises herr
    exact ⟨t, ht, hrun⟩

theorem operandError_of_valid (s : State) {bs : List Byte} (h : ∀ b ∈ bs, RegOperandValid b) :
    operandError s bs = none := by
  induction bs with
  | nil => rfl
  | cons b bs ih =>
    obtain ⟨hb, hbs⟩ := List.forall_mem_cons.1 h
    rw [operandError, if_pos hb, ih hbs]

/-- A well-formed instruction raises nothing, but for a CALL whose return address is no byte (D9). -/
theorem ruleError_of_wellFormed {i : Instr} {s : State} (hwf : i.WellFormed)
    (hcall : (∃ r, i = .call r) → s.pc + 2 ≤ 255) : ruleError i s = none := by
  have hop := operandError_of_valid s hwf
  cases i with
  | hlt | ret => rfl
  | call r => rw [ruleError, show operandError s [r] = none from hop, if_pos (hcall ⟨r, rfl⟩), Option.none_or]
  | jeq r | jne r => simp only [ruleError, show operandError s [r] = none from hop, ite_self]
  | _ => exact hop

/-- Settles O11: the instruction is dispatched, raises nothing, and its effect records no error. -/
theorem wellFormedInstructionStepsSafely : Obligations.WellFormedInstructionStepsSafely := by
  intro s i hr hf hwf hcall
  refine ⟨ruleEffect i s, ?_, ruleEffect_notFaulted hr i⟩
  rw [step, stepWith_of_fetch_ok exec hr hf, exec_of_ruleError_none (ruleError_of_wellFormed hwf hcall)]

/-! ## A run under fuel -/

theorem runUnder_of_not_running {cfg : Config} {s : State} (h : s.run ≠ .running) (n : Nat) : runUnder cfg n s = s := by
  cases n with
  | zero => rfl
  | succ n =>
    cases hs : stepUnder cfg s with
    | next t => exact absurd (stepWith_next_cases hs).1 h
    | _ => simp only [runUnder, hs]

/-- Settles O17, by induction on the fuel that suffices: the two runs take the same first step or neither has one. -/
theorem endOfRunIsStable : Obligations.EndOfRunIsStable := by
  intro cfg k
  induction k with
  | zero => exact fun s h n _ => runUnder_of_not_running h n
  | succ k ih =>
    intro s h n hn
    obtain ⟨n, rfl⟩ : ∃ n', n = n' + 1 := ⟨n - 1, by omega⟩
    cases hs : stepUnder cfg s with
    | next t =>
      simp only [runUnder, hs] at h ⊢
      exact ih t h n (by omega)
    | _ => simp only [runUnder, hs]

end Sys2Proof.Machine
end

section
/-! SUPPORT. The stack pointer (R24, R27): its decrement, as its increment above, is `wrap8` of an unbounded sum. -/

namespace Sys2Proof.Machine

theorem State.decSp_sp_eq_wrap8 (s : State) : s.decSp.sp = wrap8 (s.sp.toNat + 255) := by
  rw [State.decSp_sp]
  apply BitVec.eq_of_toNat_eq
  rw [wrap8_toNat]
  bv_omega

theorem State.decSp_isWritten_spIndex (s : State) : s.decSp.isWritten spIndex = Bool.true :=
  s.setReg_isWritten_same spIndex _

theorem State.sameRegsBut_decSp (s : State) : SameRegsBut [spIndex] s s.decSp :=
  s.sameRegsBut_setReg spIndex _

/-- R7 as an operand is the decremented SP, and every other register is as before (D10). -/
theorem State.decSp_reg_eq_wrap8 (s : State) (i : RegIndex) :
    s.decSp.reg i = if i = spIndex then wrap8 (s.sp.toNat + 255) else s.reg i := by
  rw [State.decSp_reg, ← State.decSp_sp, State.decSp_sp_eq_wrap8]

/-- Settles O21: both operations are register writes of R7, and a byte is an address that exists. -/
theorem stackPointerWraps : Obligations.StackPointerWraps := by
  refine fun s => ⟨?_, ?_, ?_, ⟨_, s.memRead_byte s.sp⟩, fun v => ⟨_, s.memWrite_byte s.sp v⟩⟩
  · rw [State.decSp_sp_eq_wrap8, wrap8_toNat]
  · rw [State.incSp_sp_eq_wrap8, wrap8_toNat]
  · rintro t (rfl | rfl)
    · exact ⟨s.sameRegsBut_decSp, s.decSp_isWritten_spIndex, rfl, rfl, rfl, rfl, rfl⟩
    · exact ⟨s.sameRegsBut_incSp, s.incSp_isWritten_spIndex, rfl, rfl, rfl, rfl, rfl⟩

end Sys2Proof.Machine
end

section
/-! SUPPORT. PRN (R132). -/

namespace Sys2Proof.Machine

theorem exec_prn_of_eq (s : State) {r : Byte} {i : RegIndex} (h : r.toNat = i.val) :
    exec (.prn r) s = .next ((s.emit (s.reg i)).advance 2) := by
  rw [exec_of_ruleError_none (show ruleError (.prn r) s = none from operandError_of_eq s h), ruleEffect,
    operandReg_of_eq h]

/-- Settles O24: the byte emitted with its frame, the check of the operand byte, and the fetch at 255. -/
theorem prnEmitsTheRegister : Obligations.PrnEmitsTheRegister := by
  refine ⟨fun _ _ => rfl, fun s r i hr => ?_, fun s r hr => ?_, fetchRaisesPastTheEnd .prn⟩
  · exact ⟨_, exec_prn_of_eq s hr, rfl, rfl, fun _ => ⟨rfl, rfl⟩, rfl, rfl, fun _ => rfl⟩
  · exact exec_raises (operandError_of_ge s hr)

/-- Settles O25: PRN reads the register LDI wrote. -/
theorem ldiThenPrnEmitsTheValue : Obligations.LdiThenPrnEmitsTheValue := by
  intro s r v hr
  let i : RegIndex := ⟨r.toNat, hr⟩
  refine ⟨_, _, exec_ldi_of_eq s (i := i) rfl v, exec_prn_of_eq _ (i := i) rfl, ?_⟩
  rw [State.advance_out, State.emit_out, State.advance_reg, State.setReg_reg_same]
  rfl

end Sys2Proof.Machine
end

section
/-! SUPPORT. ADD, MUL and CMP (R156, R157, R158): what they answer on valid operands, and the errors of two register
operands, which they share (R225). -/

namespace Sys2Proof.Machine

/-! ## The errors of two register operands -/

theorem operandError_pair_of_eq (s : State) {a b : Byte} {i j : RegIndex} (ha : a.toNat = i.val)
    (hb : b.toNat = j.val) : operandError s [a, b] = none := by
  rw [operandError_pair, operandError_of_eq s ha, operandError_of_eq s hb, Option.none_or]

theorem operandError_pair_of_ge_left (s : State) {a : Byte} (ha : 8 ≤ a.toNat) (b : Byte) :
    operandError s [a, b] = some (.outOfBounds .register a.toNat s.pc) := by
  rw [operandError_pair, operandError_of_ge s ha, Option.some_or]

theorem operandError_pair_of_ge_right (s : State) {a b : Byte} (ha : a.toNat < 8) (hb : 8 ≤ b.toNat) :
    operandError s [a, b] = some (.outOfBounds .register b.toNat s.pc) := by
  rw [operandError_pair, operandError_of_eq s (i := ⟨a.toNat, ha⟩) rfl, Option.none_or, operandError_of_ge s hb]

/-- With no reset values, a list of operands raises at its first unwritten register. -/
theorem unwrittenError_of_unwritten {cfg : Config} (hcfg : cfg.gprInit = none) {s : State} {b : Byte} {i : RegIndex}
    (hb : b.toNat = i.val) (hw : s.isWritten i = Bool.false) (bs : List Byte) :
    unwrittenError cfg s (b :: bs) = some (.unwrittenRegister i) := by
  simp [unwrittenError, operandReg_of_eq hb, hcfg, hw]

/-- A written operand is passed over. -/
theorem unwrittenError_of_written {cfg : Config} {s : State} {b : Byte} {i : RegIndex}
    (hb : b.toNat = i.val) (hw : s.isWritten i = Bool.true) (bs : List Byte) :
    unwrittenError cfg s (b :: bs) = unwrittenError cfg s bs := by
  simp [unwrittenError, operandReg_of_eq hb, hw]

/-- The unwritten-operand clause of ADD, MUL and CMP: of two unwritten operands the first raises (D19). -/
theorem raises_unwritten_of_pair {i : Instr} {cfg : Config} {s : State} {a b : Byte} {k l : RegIndex}
    (hi : ruleErrorUnder cfg i s = readError cfg s [a, b]) (hcfg : cfg.gprInit = none)
    (ha : a.toNat = k.val) (hb : b.toNat = l.val) :
    (s.isWritten k = Bool.false → Raises s (.unwrittenRegister k) (execUnder cfg i s)) ∧
    (s.isWritten k = Bool.true → s.isWritten l = Bool.false →
      Raises s (.unwrittenRegister l) (execUnder cfg i s)) := by
  rw [readError, operandError_pair_of_eq s ha hb, Option.none_or] at hi
  refine ⟨fun hk => ?_, fun hk hl => ?_⟩
  · exact execUnder_raises_of_ruleErrorUnder (hi.trans (unwrittenError_of_unwritten hcfg ha hk [b]))
  · exact execUnder_raises_of_ruleErrorUnder
      (hi.trans ((unwrittenError_of_written ha hk [b]).trans (unwrittenError_of_unwritten hcfg hb hl [])))

/-! ## ADD and MUL -/

/-- What ADD and MUL leave unchanged beside the register they write. -/
theorem State.setReg_advance_frame (s : State) (i : RegIndex) (v : Byte) :
    let t := (s.setReg i v).advance 3
    t.isWritten i = Bool.true ∧ SameRegsBut [i] s t ∧ t.pc = s.pc + 3 ∧ t.eq = s.eq ∧ t.run = s.run ∧ t.out = s.out ∧
      SameMemory s t :=
  ⟨s.setReg_isWritten_same i v, s.sameRegsBut_setReg i v, rfl, rfl, rfl, rfl, fun _ => rfl⟩

theorem exec_add_of_eq (s : State) {a b : Byte} {i j : RegIndex} (ha : a.toNat = i.val) (hb : b.toNat = j.val) :
    exec (.add a b) s = .next ((s.setReg i (aluResult .add (s.reg i) (s.reg j))).advance 3) := by
  rw [exec_of_ruleError_none (show ruleError (.add a b) s = none from operandError_pair_of_eq s ha hb), ruleEffect,
    operandReg_of_eq ha, operandReg_of_eq hb]

theorem exec_mul_of_eq (s : State) {a b : Byte} {i j : RegIndex} (ha : a.toNat = i.val) (hb : b.toNat = j.val) :
    exec (.mul a b) s = .next ((s.setReg i (aluResult .mul (s.reg i) (s.reg j))).advance 3) := by
  rw [exec_of_ruleError_none (show ruleError (.mul a b) s = none from operandError_pair_of_eq s ha hb), ruleEffect,
    operandReg_of_eq ha, operandReg_of_eq hb]

/-- Settles O26: the register write of the sum with its frame, and the errors of two register operands in order. -/
theorem addWritesTheSum : Obligations.AddWritesTheSum := by
  refine ⟨fun _ _ _ => rfl, fun s a b i j ha hb => ?_, fun s a b ha => ?_, fun s a b ha hb => ?_,
    fun _ _ _ _ _ _ => raises_unwritten_of_pair rfl, fetchRaisesPastTheEnd .add⟩
  · refine ⟨_, exec_add_of_eq s ha hb, ?_, s.setReg_advance_frame i _⟩
    rw [State.advance_reg, State.setReg_reg_same, aluResult_add_toNat]
  · exact exec_raises (operandError_pair_of_ge_left s ha b)
  · exact exec_raises (operandError_pair_of_ge_right s ha hb)

/-- Settles O27: the register write of the product with its frame, and the errors as for ADD. -/
theorem mulWritesTheProduct : Obligations.MulWritesTheProduct := by
  refine ⟨fun _ _ _ => rfl, fun s a b i j ha hb => ?_, fun s a b ha => ?_, fun s a b ha hb => ?_,
    fun _ _ _ _ _ _ => raises_unwritten_of_pair rfl, fetchRaisesPastTheEnd .mul⟩
  · refine ⟨_, exec_mul_of_eq s ha hb, ?_, s.setReg_advance_frame i _⟩
    rw [State.advance_reg, State.setReg_reg_same, aluResult_mul_toNat]
  · exact exec_raises (operandError_pair_of_ge_left s ha b)
  · exact exec_raises (operandError_pair_of_ge_right s ha hb)

/-! ## CMP -/

theorem exec_cmp_of_eq (s : State) {a b : Byte} {i j : RegIndex} (ha : a.toNat = i.val) (hb : b.toNat = j.val) :
    exec (.cmp a b) s = .next ((s.setEq (compareFlag (aluEq .cmp (s.reg i) (s.reg j)))).advance 3) := by
  rw [exec_of_ruleError_none (show ruleError (.cmp a b) s = none from operandError_pair_of_eq s ha hb), ruleEffect,
    operandReg_of_eq ha, operandReg_of_eq hb]

/-- The flag CMP writes says whether the operands are the same number (R153, R158). -/
theorem compareFlag_aluEq_cmp (x y : Byte) :
    compareFlag (aluEq .cmp x y) = if x.toNat = y.toNat then .true else .false := by
  simp [compareFlag_eq, aluEq, BitVec.toNat_inj]

/-- Settles O28: the write of EQ, which touches no register and no memory, and the errors as for ADD. -/
theorem cmpSetsTheFlag : Obligations.CmpSetsTheFlag := by
  refine ⟨fun _ _ _ => rfl, fun s a b i j ha hb => ?_, fun s a b ha => ?_, fun s a b ha hb => ?_,
    fun _ _ _ _ _ _ => raises_unwritten_of_pair rfl, fetchRaisesPastTheEnd .cmp⟩
  · refine ⟨_, exec_cmp_of_eq s ha hb, fun h => ?_, fun h => ?_, fun _ => ⟨rfl, rfl⟩, rfl, rfl, rfl, fun _ => rfl⟩
    · rw [State.advance_eq, State.setEq_eq, compareFlag_aluEq_cmp, if_pos h]
    · rw [State.advance_eq, State.setEq_eq, compareFlag_aluEq_cmp, if_neg h]
  · exact exec_raises (operandError_pair_of_ge_left s ha b)
  · exact exec_raises (operandError_pair_of_ge_right s ha hb)

end Sys2Proof.Machine
end

section
/-! SUPPORT. PUSH and POP (R171, R172, R173). -/

namespace Sys2Proof.Machine

theorem exec_push_of_eq (s : State) {r : Byte} {i : RegIndex} (h : r.toNat = i.val) :
    exec (.push r) s = .next ((s.decSp.setMem (s.mem.set s.decSp.sp.toNat (s.decSp.reg i))).advance 2) := by
  rw [exec_of_ruleError_none (show ruleError (.push r) s = none from operandError_of_eq s h), ruleEffect,
    operandReg_of_eq h]

theorem exec_pop_of_eq (s : State) {r : Byte} {i : RegIndex} (h : r.toNat = i.val) :
    exec (.pop r) s = .next ((s.setReg i (s.mem.get s.sp.toNat)).incSp.advance 2) := by
  rw [exec_of_ruleError_none (show ruleError (.pop r) s = none from operandError_of_eq s h), ruleEffect,
    operandReg_of_eq h]

theorem Memory.get_set_same (m : Memory) (a : Nat) (v : Byte) : (m.set a v).get a = v := by
  rw [Memory.get_set, if_pos rfl]

/-- A byte stored after the decrement of SP changes no other address. -/
theorem State.sameMemoryBut_decSp_set (s : State) (a : Nat) (v : Byte) :
    SameMemoryBut a s (s.decSp.setMem (s.mem.set a v)) :=
  s.sameMemoryBut_setMem_set a v

/-- Settles O29: the decrement of SP and the write at the new SP, each with its frame. -/
theorem pushStoresBelow : Obligations.PushStoresBelow := by
  refine ⟨fun s r i hr => ?_, fun s r hr => ?_, fetchRaisesPastTheEnd .push⟩
  · refine ⟨_, exec_push_of_eq s hr, s.decSp_sp_eq_wrap8, s.decSp_isWritten_spIndex, s.sameRegsBut_decSp, ?_,
      s.sameMemoryBut_decSp_set _ _, rfl, rfl, rfl, rfl⟩
    rw [State.advance_mem, State.setMem_mem, Memory.get_set_same, State.decSp_reg_eq_wrap8]
  · exact exec_raises (operandError_of_ge s hr)

/-- Settles O30: the write of the register and then the increment of SP, which reads R7 again. -/
theorem popLoadsFromTheTop : Obligations.PopLoadsFromTheTop := by
  refine ⟨fun s r i hr => ?_, fun s r hr => ?_, fetchRaisesPastTheEnd .pop⟩
  · let p := s.setReg i (s.mem.get s.sp.toNat)
    have hp : p.reg i = s.mem.get s.sp.toNat := s.setReg_reg_same i _
    refine ⟨_, exec_pop_of_eq s hr, fun hi => ⟨?_, ?_⟩, ?_, ?_, p.incSp_isWritten_spIndex, ?_, fun _ => rfl,
      rfl, rfl, rfl, rfl⟩
    · rw [State.advance_reg, State.incSp_reg, if_neg hi, hp]
    · rw [State.advance_sp, State.incSp_sp_eq_wrap8, State.setReg_sp, if_neg (Ne.symm hi)]
    · rintro rfl
      rw [State.advance_sp, State.incSp_sp_eq_wrap8, State.sp, hp]
    · rw [State.advance_isWritten, State.incSp_isWritten, s.setReg_isWritten_same, ite_self]
    · intro j hj
      obtain ⟨hji, hj7⟩ : j ≠ i ∧ j ≠ spIndex := by simpa using hj
      simp [hji, hj7]
  · exact exec_raises (operandError_of_ge s hr)

/-- Settles O31: POP reads at SP the byte PUSH stored there, and the increment undoes the decrement; for R7 the byte
stored is the decremented SP. -/
theorem pushThenPopRestores : Obligations.PushThenPopRestores := by
  intro s r hr
  obtain ⟨i, hi⟩ : ∃ i : RegIndex, r.toNat = i.val := ⟨⟨r.toNat, hr⟩, rfl⟩
  refine ⟨_, _, exec_push_of_eq s hi, exec_pop_of_eq _ hi, fun j => ?_, fun _ => rfl⟩
  by_cases hj : j = spIndex
  · by_cases hi7 : i = spIndex
    · simp [hj, hi7, State.sp]
    · simp [hj, hi7, Ne.symm hi7, State.sp]
  · by_cases hji : j = i
    · simp [← hji, hj]
    · simp [hj, hji]

end Sys2Proof.Machine
end

section
/-! SUPPORT. CALL, the return from it, and the two branches (R191, R194, R195, R197). -/

namespace Sys2Proof.Machine

/-! ## CALL -/

theorem ruleError_call_of_le {s : State} {r : Byte} {i : RegIndex} (h : r.toNat = i.val) (hret : s.pc + 2 ≤ 255) :
    ruleError (.call r) s = none := by
  rw [ruleError, operandError_of_eq s h, Option.none_or, if_pos hret]

theorem ruleError_call_of_gt {s : State} {r : Byte} {i : RegIndex} (h : r.toNat = i.val) (hret : 255 < s.pc + 2) :
    ruleError (.call r) s = some (.outOfBounds .value (s.pc + 2) s.pc) := by
  rw [ruleError, operandError_of_eq s h, Option.none_or, if_neg (not_le.2 hret)]

theorem ruleError_call_of_ge {s : State} {r : Byte} (h : 8 ≤ r.toNat) :
    ruleError (.call r) s = some (.outOfBounds .register r.toNat s.pc) := by
  rw [ruleError, operandError_of_ge s h, Option.some_or]

theorem exec_call_of_eq {s : State} {r : Byte} {i : RegIndex} (h : r.toNat = i.val) (hret : s.pc + 2 ≤ 255) :
    exec (.call r) s =
      .next ((s.decSp.setMem (s.mem.set s.decSp.sp.toNat (wrap8 (s.pc + 2)))).jump (s.decSp.reg i)) := by
  rw [exec_of_ruleError_none (ruleError_call_of_le h hret), ruleEffect, operandReg_of_eq h]

theorem wrap8_toNat_of_le {v : Nat} (h : v ≤ 255) : (wrap8 v).toNat = v := by
  rw [wrap8_toNat, Nat.mod_eq_of_lt (by omega)]

/-- Settles O32: the decrement of SP, the write of the return address and the jump; the operand's check comes before the
return address's. -/
theorem callStoresTheReturnAddress : Obligations.CallStoresTheReturnAddress := by
  refine ⟨fun s r i hr hret => ?_, fun s r hr => ?_, fun s r hr hret => ?_, fetchRaisesPastTheEnd .call⟩
  · refine ⟨_, exec_call_of_eq hr hret, s.decSp_sp_eq_wrap8, s.decSp_isWritten_spIndex, s.sameRegsBut_decSp, ?_,
      s.sameMemoryBut_decSp_set _ _, ?_, rfl, rfl, rfl⟩
    · rw [State.jump_mem, State.setMem_mem, Memory.get_set_same, wrap8_toNat_of_le hret]
    · rw [State.jump_pc, State.decSp_reg_eq_wrap8]
  · exact exec_raises (ruleError_call_of_ge hr)
  · exact exec_raises (ruleError_call_of_gt (i := ⟨r.toNat, hr⟩) rfl hret)

/-- A CALL that raised nothing has a return address that is a byte. -/
theorem return_address_le_of_ruleError_call {s : State} {r : Byte} (h : ruleError (.call r) s = none) :
    s.pc + 2 ≤ 255 := by
  rw [ruleError, Option.or_eq_none_iff] at h
  by_contra hret
  rw [if_neg hret] at h
  cases h.2

/-- Settles O34: RET reads the return address that CALL stored at the SP both have, and the increment of SP undoes the
decrement. -/
theorem callThenRetReturns : Obligations.CallThenRetReturns := by
  intro s t v r ht hnf hsp hget
  obtain ⟨herr, rfl⟩ := eq_ruleEffect_of_notFaulted ht hnf
  refine ⟨_, exec_ret v, ?_, ?_⟩
  · calc (v.mem.get v.sp.toNat).toNat
        = ((ruleEffect (.call r) s).mem.get s.decSp.sp.toNat).toNat := congrArg BitVec.toNat hget
      _ = (wrap8 (s.pc + 2)).toNat := congrArg BitVec.toNat (Memory.get_set_same _ _ _)
      _ = s.pc + 2 := wrap8_toNat_of_le (return_address_le_of_ruleError_call herr)
  · calc (v.jump (v.mem.get v.sp.toNat)).incSp.sp
        = v.sp + 1 := State.incSp_sp _
      _ = s.decSp.sp + 1 := congrArg (· + 1) hsp
      _ = s.sp := by rw [State.decSp_sp, sub_add_cancel]

/-! ## JEQ and JNE -/

theorem exec_jeq_taken {s : State} (heq : s.eq = .true) {r : Byte} {i : RegIndex} (h : r.toNat = i.val) :
    exec (.jeq r) s = .next (s.jump (s.reg i)) := by
  rw [exec_of_ruleError_none (by rw [ruleError, if_pos heq, operandError_of_eq s h]), ruleEffect, if_pos heq,
    operandReg_of_eq h]

/-- A branch not taken does not check its operand (D7). -/
theorem exec_jeq_not_taken {s : State} (heq : s.eq ≠ .true) (r : Byte) :
    exec (.jeq r) s = .next (s.advance 2) := by
  rw [exec_of_ruleError_none (by rw [ruleError, if_neg heq]), ruleEffect, if_neg heq]

theorem exec_jne_taken {s : State} (heq : s.eq ≠ .true) {r : Byte} {i : RegIndex} (h : r.toNat = i.val) :
    exec (.jne r) s = .next (s.jump (s.reg i)) := by
  rw [exec_of_ruleError_none (by rw [ruleError, if_neg heq, operandError_of_eq s h]), ruleEffect, if_neg heq,
    operandReg_of_eq h]

theorem exec_jne_not_taken {s : State} (heq : s.eq = .true) (r : Byte) :
    exec (.jne r) s = .next (s.advance 2) := by
  rw [exec_of_ruleError_none (by rw [ruleError, if_pos heq]), ruleEffect, if_pos heq]

/-- Settles O36: the jump, the fall through and the operand's check, by EQ, and the fetch at 255. -/
theorem jeqJumpsIfEqual : Obligations.JeqJumpsIfEqual := by
  refine ⟨fun s r i heq hr => ?_, fun s r heq => ?_, fun s r heq hr => ?_, fetchRaisesPastTheEnd .jeq⟩
  · exact ⟨_, exec_jeq_taken heq hr, rfl, fun _ => ⟨rfl, rfl⟩, fun _ => rfl, rfl, rfl, rfl⟩
  · exact ⟨_, exec_jeq_not_taken heq r, rfl, fun _ => ⟨rfl, rfl⟩, fun _ => rfl, rfl, rfl, rfl⟩
  · exact exec_raises (by rw [ruleError, if_pos heq, operandError_of_ge s hr])

/-- Settles O37: as JEQ with the senses of EQ exchanged. -/
theorem jneJumpsIfNotEqual : Obligations.JneJumpsIfNotEqual := by
  refine ⟨fun s r i heq hr => ?_, fun s r heq => ?_, fun s r heq hr => ?_, fetchRaisesPastTheEnd .jne⟩
  · exact ⟨_, exec_jne_taken heq hr, rfl, fun _ => ⟨rfl, rfl⟩, fun _ => rfl, rfl, rfl, rfl⟩
  · exact ⟨_, exec_jne_not_taken heq r, rfl, fun _ => ⟨rfl, rfl⟩, fun _ => rfl, rfl, rfl, rfl⟩
  · exact exec_raises (by rw [ruleError, if_neg heq, operandError_of_ge s hr])

end Sys2Proof.Machine
end

section
/-! SUPPORT. The new PC of each instruction (R29). -/

namespace Sys2Proof.Machine

theorem operandError_of_ruleError_call {s : State} {r : Byte} (h : ruleError (.call r) s = none) :
    operandError s [r] = none := (Option.or_eq_none_iff.1 h).1

/-- Settles O38: the PC of each effect; a register that gives the PC is the one its operand byte names. -/
theorem pcIsSetAsListed : Obligations.PcIsSetAsListed := by
  intro i s t h ht
  obtain ⟨herr, rfl⟩ := eq_ruleEffect_of_notFaulted h ht
  cases i with
  | call r => exact ⟨operandReg r, toNat_eq_operandReg_of_operandError_none (operandError_of_ruleError_call herr), rfl⟩
  | jmp r => exact ⟨operandReg r, toNat_eq_operandReg_of_operandError_none herr, rfl⟩
  | jeq r =>
    by_cases heq : s.eq = .true
    · rw [ruleError, if_pos heq] at herr
      rw [NextPc, if_pos heq, ruleEffect, if_pos heq]
      exact ⟨operandReg r, toNat_eq_operandReg_of_operandError_none herr, rfl⟩
    · rw [NextPc, if_neg heq, ruleEffect, if_neg heq]
      rfl
  | jne r =>
    by_cases heq : s.eq = .true
    · rw [NextPc, if_neg (by simp [heq]), ruleEffect, if_pos heq]
      rfl
    · rw [ruleError, if_neg heq] at herr
      rw [NextPc, if_pos (by simp [heq]), ruleEffect, if_neg heq]
      exact ⟨operandReg r, toNat_eq_operandReg_of_operandError_none herr, rfl⟩
  | _ => rfl

end Sys2Proof.Machine
end

section
/-! SUPPORT. Who reaches memory (R55), and that a stored byte is what the next fetch sees (R66, R254). -/

namespace Sys2Proof.Machine

/-! ## The fetch -/

/-- The fetch reads the three bytes at the PC that exist, and no other part of memory. -/
theorem State.fetch_setMem_congr (m : OpcodeMap) {s : State} {mem : Memory}
    (h : ∀ a, s.pc ≤ a → a ≤ s.pc + 2 → mem.get a = s.mem.get a) : (s.setMem mem).fetch m = s.fetch m := by
  have hbytes : (s.setMem mem).bytesAtPc = s.bytesAtPc := by
    refine List.map_congr_left fun a ha => ?_
    have hmem : a ∈ [s.pc, s.pc + 1, s.pc + 2] := (List.mem_filter.1 ha).1
    simp only [List.mem_cons, List.not_mem_nil, or_false] at hmem
    exact h a (by omega) (by omega)
  rw [State.fetch_eq_decode, State.fetch_eq_decode, hbytes, State.setMem_pc]

/-- A byte in memory is seen by the fetch of its address. -/
theorem State.nextFetchSees_of_get {t : State} {a : Nat} {v : Byte} (ha : a < 256) (h : t.mem.get a = v) :
    t.NextFetchSees a v := by
  have hread := t.memRead_of_lt ha
  rw [h] at hread
  refine ⟨fun hpc => ?_, fun hpc => ⟨?_, fun hlast => ?_⟩, fun hpc => ?_⟩
  · rw [State.fetchOpcode, hpc, hread]
  · simp [State.fetchOperands, hpc, hread]
  · simp [State.fetchOperands, hpc, hread, t.memRead_of_lt (Nat.lt_succ_of_le hlast)]
  · simp [State.fetchOperands, hpc, hread, t.memRead_of_lt (show t.pc + 1 < 256 by omega)]

/-- Settles O43: the byte stands in memory at the decremented SP, a byte address. -/
theorem storedByteIsFetchedNext : Obligations.StoredByteIsFetchedNext := by
  refine ⟨fun s r i hr => ⟨_, exec_push_of_eq s hr, rfl, ?_⟩,
    fun s r i hr hret => ⟨_, exec_call_of_eq hr hret, rfl, ?_⟩⟩
  · exact State.nextFetchSees_of_get s.decSp.sp.isLt (Memory.get_set_same _ _ _)
  · exact State.nextFetchSees_of_get s.decSp.sp.isLt (Memory.get_set_same _ _ _)

/-! ## The instructions -/

/-- Two answers agree when the errors are the same and, where there is none, the effects agree. -/
theorem agree_exec {p : State → State → Prop} {i : Instr} {s s' : State} (herr : ruleError i s' = ruleError i s)
    (hout : s.out = s'.out)
    (heff : ruleError i s = none → Agree p (.next (ruleEffect i s)) (.next (ruleEffect i s'))) :
    Agree p (exec i s) (exec i s') := by
  rw [exec_eq, exec_eq, herr]
  cases he : ruleError i s with
  | none => exact heff he
  | some e => exact ⟨_, _, rfl, rfl, rfl, hout, fun hnf => absurd rfl (hnf e)⟩

theorem ruleEffect_setMem (i : Instr) {s : State} {mem : Memory}
    (h : (i = .ret ∨ ∃ r, i = .pop r) → mem.get s.sp.toNat = s.mem.get s.sp.toNat) :
    ∃ mem', ruleEffect i (s.setMem mem) = (ruleEffect i s).setMem mem' := by
  cases i with
  | ret =>
    refine ⟨mem, ?_⟩
    simp only [ruleEffect, State.setMem_mem, State.setMem_sp, h (.inl rfl)]
    rfl
  | pop r =>
    refine ⟨mem, ?_⟩
    simp only [ruleEffect, State.setMem_mem, State.setMem_sp, h (.inr ⟨r, rfl⟩)]
    rfl
  | jeq r | jne r =>
    refine ⟨mem, ?_⟩
    rw [ruleEffect, ruleEffect, State.setMem_eq]
    split_ifs <;> rfl
  | _ => exact ⟨_, rfl⟩

/-- Settles O41: the fetch through the bytes at the PC, the memory of each effect, and effects from two states that
differ in memory alone. -/
theorem memoryTouchedAsListed : Obligations.MemoryTouchedAsListed := by
  refine ⟨fun m s mem => State.fetch_setMem_congr m, fun i s t h ht => ?_, fun i s mem h => ?_⟩
  · obtain ⟨-, rfl⟩ := eq_ruleEffect_of_notFaulted h ht
    refine ⟨fun b hb => ?_, fun hpush hcall b => ?_⟩
    · rcases ruleEffect_mem_cases i s with hmem | ⟨v, hmem⟩
      · rw [hmem]
      · rw [hmem, Memory.get_set, if_neg hb]
    · rw [ruleEffect_mem_of_not_store hpush hcall]
  · obtain ⟨mem', heff⟩ := ruleEffect_setMem i h
    exact agree_of_ruleEffect (ruleError_congr rfl fun _ _ => rfl) rfl heff rfl rfl rfl ⟨rfl, fun _ => ⟨rfl, rfl⟩⟩

end Sys2Proof.Machine
end

section
/-! SUPPORT. Who writes and who reads which register (R25). -/

namespace Sys2Proof.Machine

/-- An effect changes the registers of the written operands and, for the stack instructions, R7. -/
theorem ruleEffect_reg_of_not_written {i : Instr} {s : State} {j : RegIndex}
    (hw : ∀ b ∈ regsWritten i, operandReg b ≠ j) (hsp : usesSp i = Bool.true → j ≠ spIndex) :
    (ruleEffect i s).reg j = s.reg j := by
  cases i with
  | ldi r | add r | mul r =>
    have hne : j ≠ operandReg r := (hw r List.mem_cons_self).symm
    simp [ruleEffect, hne]
  | pop r =>
    have hne : j ≠ operandReg r := (hw r List.mem_cons_self).symm
    simp [ruleEffect, hne, hsp rfl]
  | push r | call r | ret => simp [ruleEffect, hsp rfl]
  | jeq r | jne r => simp only [ruleEffect]; split <;> rfl
  | _ => rfl

/-! ## The operand bytes of an instruction that raises nothing -/

theorem toNat_eq_operandReg_of_mem {s : State} {bs : List Byte} (h : operandError s bs = none) {b : Byte}
    (hb : b ∈ bs) : b.toNat = (operandReg b).val := by
  induction bs with
  | nil => cases hb
  | cons c bs ih =>
    have hc : c.toNat < 8 := by
      by_contra hc
      rw [operandError, if_neg hc] at h
      cases h
    rw [operandError, if_pos hc] at h
    rcases List.mem_cons.1 hb with rfl | hb
    · rw [operandReg_of_eq (k := ⟨b.toNat, hc⟩) rfl]
    · exact ih h hb

theorem toNat_eq_operandReg_of_mem_regsWritten {i : Instr} {s : State} (h : ruleError i s = none) {b : Byte}
    (hb : b ∈ regsWritten i) : b.toNat = (operandReg b).val := by
  cases i with
  | ldi | pop => exact toNat_eq_operandReg_of_mem h hb
  | add a c | mul a c => exact toNat_eq_operandReg_of_mem h (List.mem_singleton.1 hb ▸ List.mem_cons_self)
  | _ => cases hb

theorem toNat_eq_operandReg_of_mem_operandsRead {i : Instr} {s : State} (h : ruleError i s = none) {b : Byte}
    (hb : b ∈ operandsRead i s) : b.toNat = (operandReg b).val := by
  cases i with
  | hlt | ldi | pop | ret => cases hb
  | call r => exact toNat_eq_operandReg_of_mem (operandError_of_ruleError_call h) hb
  | jeq r =>
    by_cases heq : s.eq = .true
    · rw [ruleError, if_pos heq] at h
      rw [operandsRead, if_pos heq] at hb
      exact toNat_eq_operandReg_of_mem h hb
    · rw [operandsRead, if_neg heq] at hb
      cases hb
  | jne r =>
    by_cases heq : s.eq = .true
    · rw [operandsRead, if_pos heq] at hb
      cases hb
    · rw [ruleError, if_neg heq] at h
      rw [operandsRead, if_neg heq] at hb
      exact toNat_eq_operandReg_of_mem h hb
  | _ => exact toNat_eq_operandReg_of_mem h hb

/-- The operands read in a state are among the instruction's read operands. -/
theorem operandsRead_subset (i : Instr) (s : State) : operandsRead i s ⊆ regsRead i := by
  cases i with
  | jeq r | jne r => simp only [operandsRead]; split <;> simp [regsRead]
  | _ => exact List.Subset.refl _

/-! ## Two states that differ in one register -/

/-- Two states agree on everything but the register `j` and the written marks. -/
structure SameButReg (j : RegIndex) (s s' : State) : Prop where
  pc : s.pc = s'.pc
  eq : s.eq = s'.eq
  run : s.run = s'.run
  out : s.out = s'.out
  mem : s.mem = s'.mem
  reg : ∀ k, k ≠ j → s.reg k = s'.reg k

namespace SameButReg

variable {j : RegIndex} {s s' : State}

theorem setReg_right (s : State) (j : RegIndex) (v : Byte) : SameButReg j s (s.setReg j v) :=
  ⟨rfl, rfl, rfl, rfl, rfl, fun k hk => by rw [State.setReg_reg, if_neg hk]⟩

theorem setReg (h : SameButReg j s s') (i : RegIndex) (v : Byte) : SameButReg j (s.setReg i v) (s'.setReg i v) :=
  { h with reg := fun k hk => by rw [State.setReg_reg, State.setReg_reg, h.reg k hk] }

theorem setMem (h : SameButReg j s s') (m : Memory) : SameButReg j (s.setMem m) (s'.setMem m) := { h with mem := rfl }

theorem setEq (h : SameButReg j s s') (e : EqFlag) : SameButReg j (s.setEq e) (s'.setEq e) := { h with eq := rfl }

theorem halt (h : SameButReg j s s') : SameButReg j s.halt s'.halt := { h with run := rfl }

theorem advance (h : SameButReg j s s') (w : Nat) : SameButReg j (s.advance w) (s'.advance w) :=
  { h with pc := congrArg (· + w) h.pc }

theorem jump (h : SameButReg j s s') (v : Byte) : SameButReg j (s.jump v) (s'.jump v) := { h with pc := rfl }

theorem emit (h : SameButReg j s s') (v : Byte) : SameButReg j (s.emit v) (s'.emit v) :=
  { h with out := congrArg (· ++ [v]) h.out }

theorem decSp (h : SameButReg j s s') (hsp : s.sp = s'.sp) : SameButReg j s.decSp s'.decSp := by
  rw [State.decSp, State.decSp, hsp]
  exact h.setReg _ _

theorem incSp (h : SameButReg j s s') (hsp : s.sp = s'.sp) : SameButReg j s.incSp s'.incSp := by
  rw [State.incSp, State.incSp, hsp]
  exact h.setReg _ _

end SameButReg

/-- An instruction that reads neither `j` as an operand nor R7 as `j` has the same effect from two states that differ in
`j`, but for `j`. -/
theorem ruleEffect_sameButReg {i : Instr} {s s' : State} {j : RegIndex} (h : SameButReg j s s')
    (hread : ∀ b ∈ operandsRead i s, operandReg b ≠ j) (hsp : usesSp i = Bool.true → j ≠ spIndex) :
    SameButReg j (ruleEffect i s) (ruleEffect i s') := by
  have hreg : ∀ b ∈ operandsRead i s, s.reg (operandReg b) = s'.reg (operandReg b) := fun b hb => h.reg _ (hread b hb)
  have hsp' : usesSp i = Bool.true → s.sp = s'.sp := fun hu => h.reg spIndex (hsp hu).symm
  cases i with
  | hlt => exact h.halt.advance 1
  | ldi r imm => exact (h.setReg _ imm).advance 3
  | prn r =>
    rw [ruleEffect, ruleEffect, hreg r List.mem_cons_self]
    exact (h.emit _).advance 2
  | add a b | mul a b =>
    rw [ruleEffect, ruleEffect, hreg a List.mem_cons_self, hreg b (List.mem_cons_of_mem a List.mem_cons_self)]
    exact (h.setReg _ _).advance 3
  | cmp a b =>
    rw [ruleEffect, ruleEffect, hreg a List.mem_cons_self, hreg b (List.mem_cons_of_mem a List.mem_cons_self)]
    exact (h.setEq _).advance 3
  | push r =>
    have hd := h.decSp (hsp' rfl)
    have hdsp : s.decSp.sp = s'.decSp.sp := hd.reg spIndex (hsp rfl).symm
    rw [ruleEffect, ruleEffect, h.mem, hdsp, hd.reg _ (hread r List.mem_cons_self)]
    exact (hd.setMem _).advance 2
  | pop r =>
    rw [ruleEffect, ruleEffect, h.mem, hsp' rfl]
    have hset := h.setReg (operandReg r) (s'.mem.get s'.sp.toNat)
    exact (hset.incSp (hset.reg spIndex (hsp rfl).symm)).advance 2
  | call r =>
    have hd := h.decSp (hsp' rfl)
    have hdsp : s.decSp.sp = s'.decSp.sp := hd.reg spIndex (hsp rfl).symm
    rw [ruleEffect, ruleEffect, h.mem, h.pc, hdsp, hd.reg _ (hread r List.mem_cons_self)]
    exact (hd.setMem _).jump _
  | ret =>
    rw [ruleEffect, ruleEffect, h.mem, hsp' rfl]
    exact (h.jump _).incSp (hsp' rfl)
  | jmp r =>
    rw [ruleEffect, ruleEffect, hreg r List.mem_cons_self]
    exact h.jump _
  | jeq r =>
    rw [ruleEffect, ruleEffect, ← h.eq]
    split_ifs with heq
    · rw [hreg r (by simp [operandsRead, heq])]
      exact h.jump _
    · exact h.advance 2
  | jne r =>
    rw [ruleEffect, ruleEffect, ← h.eq]
    split_ifs with heq
    · exact h.advance 2
    · rw [hreg r (by simp [operandsRead, heq])]
      exact h.jump _

/-- Settles O42: the registers an effect changes, and effects from two states that differ in one register; where nothing
is raised, an operand byte is the number of its register. -/
theorem registersTouchedAsListed : Obligations.RegistersTouchedAsListed := by
  refine ⟨fun i s t h ht j hj => ?_, fun i s j v hread hsp => ?_⟩
  · obtain ⟨herr, rfl⟩ := eq_ruleEffect_of_notFaulted h ht
    by_contra hnone
    obtain ⟨hw, hu⟩ := not_or.1 hnone
    refine hj (ruleEffect_reg_of_not_written (fun b hb hbj => hw ⟨b, hb, ?_⟩) fun husp hj7 => hu ⟨husp, hj7⟩)
    exact hbj ▸ toNat_eq_operandReg_of_mem_regsWritten herr hb
  · refine agree_exec (ruleError_congr rfl fun _ _ => rfl) rfl fun herr => ?_
    have hread' : ∀ b ∈ operandsRead i s, operandReg b ≠ j := fun b hb hbj =>
      hread b (operandsRead_subset i s hb) (hbj ▸ toNat_eq_operandReg_of_mem_operandsRead herr hb)
    have heff := ruleEffect_sameButReg (SameButReg.setReg_right s j v) hread' hsp
    exact ⟨_, _, rfl, rfl, heff.run, heff.out, fun _ => ⟨heff.pc, heff.eq, fun a => by rw [heff.mem], heff.reg⟩⟩

end Sys2Proof.Machine
end

section
/-! SUPPORT. The other values of the parameters (R6): how an unset flag reads (R196), and when an unwritten register is
an error (R231). -/

namespace Sys2Proof.Machine

/-! ## The flag -/

theorem flagError_of_unset_fault {cfg : Config} {s : State} (hs : s.eq = .unset) (hcfg : cfg.unsetPolicy = .fault) :
    flagError cfg s = some (.unsetFlag s.pc) := if_pos ⟨hs, hcfg⟩

/-- Settles O44: the flag's value by EQ and the policy, and under `fault` the flag's error, the first of a branch. -/
theorem unsetFlagPolicy : Obligations.UnsetFlagPolicy := by
  refine ⟨fun cfg s hs => ?_, fun cfg s hs => ?_, fun cfg s hs hcfg => ?_, fun cfg s r hs hcfg => ?_⟩
  · rw [State.flagRead, hs]
  · rw [State.flagRead, hs]
  · rw [State.flagRead_asFalse hcfg, hs]
    rfl
  · have hflag := flagError_of_unset_fault hs hcfg
    have hjeq : ruleErrorUnder cfg (.jeq r) s = some (.unsetFlag s.pc) := by
      rw [ruleErrorUnder, branchFlagError, hflag, Option.some_or]
    have hjne : ruleErrorUnder cfg (.jne r) s = some (.unsetFlag s.pc) := by
      rw [ruleErrorUnder, branchFlagError, hflag, Option.some_or]
    exact ⟨by rw [State.flagRead_eq, hflag, Option.elim_some], execUnder_raises_of_ruleErrorUnder hjeq,
      execUnder_raises_of_ruleErrorUnder hjne⟩

/-- A flag that is read raises nothing, and reads TRUE exactly when it is TRUE. -/
theorem flagError_of_flagRead_ok {cfg : Config} {s : State} {f : Bool} (h : s.flagRead cfg = .ok f) :
    flagError cfg s = none ∧ f = decide (s.eq = .true) := by
  rw [State.flagRead_eq] at h
  cases he : flagError cfg s with
  | some e => simp [he] at h
  | none =>
    rw [he, Option.elim_none] at h
    exact ⟨rfl, (Except.ok.inj h).symm⟩

theorem eq_true_of_flagRead {cfg : Config} {s : State} (h : s.flagRead cfg = .ok Bool.true) : s.eq = .true :=
  of_decide_eq_true (flagError_of_flagRead_ok h).2.symm

theorem eq_ne_true_of_flagRead {cfg : Config} {s : State} (h : s.flagRead cfg = .ok Bool.false) : s.eq ≠ .true :=
  of_decide_eq_false (flagError_of_flagRead_ok h).2.symm

/-- A branch whose flag reads as on this machine raises no UnsetFlag; no other instruction reads the flag. -/
theorem branchFlagError_of_flagRead {cfg : Config} {i : Instr} {s : State}
    (h : (∃ r, i = .jeq r ∨ i = .jne r) → s.flagRead cfg = s.flagRead coreConfig) : branchFlagError cfg i s = none := by
  cases i with
  | jeq r => exact (flagError_of_flagRead_ok ((h ⟨r, .inl rfl⟩).trans s.flagRead_core)).1
  | jne r => exact (flagError_of_flagRead_ok ((h ⟨r, .inr rfl⟩).trans s.flagRead_core)).1
  | _ => rfl

/-! ## Unwritten registers -/

/-- An instruction that raises nothing else raises UnwrittenRegister for the one operand it reads (R225, item 7). -/
theorem raises_unwritten {cfg : Config} {i : Instr} {s : State} {r : Byte} {k : RegIndex} (hcfg : cfg.gprInit = none)
    (hr : r.toNat = k.val) (hw : s.isWritten k = Bool.false) (hflag : branchFlagError cfg i s = none)
    (herr : ruleError i s = none) (hread : operandsRead i s = [r]) :
    Raises s (.unwrittenRegister k) (execUnder cfg i s) := by
  apply execUnder_raises_of_ruleErrorUnder
  rw [ruleErrorUnder, hflag, herr, hread, Option.none_or, Option.none_or, unwrittenError_of_unwritten hcfg hr hw]

/-- With reset values no register counts as unwritten. -/
theorem unwrittenError_of_isSome {cfg : Config} (h : cfg.gprInit.isSome = Bool.true) (s : State) (bs : List Byte) :
    unwrittenError cfg s bs = none := by
  induction bs with
  | nil => rfl
  | cons b bs ih =>
    have hnone : cfg.gprInit.isNone = Bool.false := by rw [← Option.not_isSome, h, Bool.not_true]
    simp [unwrittenError, hnone, ih]

theorem unwrittenError_of_all_written {cfg : Config} {s : State} {bs : List Byte}
    (h : ∀ b ∈ bs, s.isWritten (operandReg b) = Bool.true) : unwrittenError cfg s bs = none := by
  induction bs with
  | nil => rfl
  | cons b bs ih =>
    obtain ⟨hb, hbs⟩ := List.forall_mem_cons.1 h
    simp [unwrittenError, hb, ih hbs]

theorem operandError_ne_unwritten (s : State) (bs : List Byte) (j : RegIndex) :
    operandError s bs ≠ some (.unwrittenRegister j) := by
  induction bs with
  | nil => exact nofun
  | cons b bs ih =>
    rw [operandError]
    split_ifs
    · exact ih
    · exact nofun

theorem ruleError_ne_unwritten (i : Instr) (s : State) (j : RegIndex) :
    ruleError i s ≠ some (.unwrittenRegister j) := by
  cases i with
  | hlt | ret => exact nofun
  | call r =>
    rw [ruleError]
    cases hop : operandError s [r] with
    | none => split_ifs <;> simp
    | some e =>
      rw [Option.some_or, ← hop]
      exact operandError_ne_unwritten s [r] j
  | jeq r | jne r =>
    rw [ruleError]
    split_ifs <;> simp [operandError_ne_unwritten]
  | _ => exact operandError_ne_unwritten s _ j

theorem branchFlagError_ne_unwritten (cfg : Config) (i : Instr) (s : State) (j : RegIndex) :
    branchFlagError cfg i s ≠ some (.unwrittenRegister j) := by
  cases i with
  | jeq r | jne r => simp only [branchFlagError, flagError]; split_ifs <;> simp
  | _ => exact nofun

/-- With reset values an instruction of a RUNNING machine raises no UnwrittenRegister. -/
theorem execUnder_run_ne_unwritten {cfg : Config} {i : Instr} {s t : State} (hcfg : cfg.gprInit.isSome = Bool.true)
    (hr : s.run = .running) (h : execUnder cfg i s = .next t) (j : RegIndex) :
    t.run ≠ .faulted (.unwrittenRegister j) := by
  rcases execUnder_next_cases h with ⟨-, rfl⟩ | ⟨e, herr, rfl⟩
  · exact ruleEffect_notFaulted hr i _
  · intro hrun
    obtain rfl : e = .unwrittenRegister j := RunState.faulted.inj hrun
    rw [ruleErrorUnder, unwrittenError_of_isSome hcfg, Option.or_none, Option.or_eq_some_iff] at herr
    rcases herr with hflag | ⟨-, hrule⟩
    · exact branchFlagError_ne_unwritten cfg i s j hflag
    · exact ruleError_ne_unwritten i s j hrule

/-! ## Where the parameters make no difference -/

/-- Without UnsetFlag and UnwrittenRegister an instruction answers as on this machine. -/
theorem execUnder_eq_exec {cfg : Config} {i : Instr} {s : State} (hflag : branchFlagError cfg i s = none)
    (hread : ruleError i s = none → unwrittenError cfg s (operandsRead i s) = none) :
    execUnder cfg i s = exec i s := by
  have herr : ruleErrorUnder cfg i s = ruleError i s := by
    rw [ruleErrorUnder, hflag, Option.none_or]
    cases he : ruleError i s with
    | none => rw [Option.none_or, hread he]
    | some e => rw [Option.some_or]
  rw [execUnder, ruleOf_eq, herr, exec_eq_commit, ruleOf_core]

/-- Settles O45: UnwrittenRegister is the last error of a rule, so it arises where no other does and an operand read is
unwritten; where it and UnsetFlag do not arise, the parameters make no difference. -/
theorem unwrittenRegisterPolicy : Obligations.UnwrittenRegisterPolicy := by
  refine ⟨fun cfg s r k hcfg hr hw => ?_, fun cfg i s t j hcfg hr h => execUnder_run_ne_unwritten hcfg hr h j,
    fun cfg i s hwritten hflag => ?_, fun cfg s r => ⟨fun hf => ?_, fun hf => ?_⟩⟩
  · have hop := operandError_of_eq s hr
    refine ⟨raises_unwritten hcfg hr hw rfl hop rfl, raises_unwritten hcfg hr hw rfl hop rfl,
      raises_unwritten hcfg hr hw rfl hop rfl, fun hret => ?_, fun hret => ?_, fun hf => ?_, fun hf => ?_⟩
    · exact raises_unwritten hcfg hr hw rfl (ruleError_call_of_le hr hret) rfl
    · have hflag : branchFlagError cfg (.call r) s = none := rfl
      exact execUnder_raises_of_ruleErrorUnder
        (by rw [ruleErrorUnder, hflag, Option.none_or, ruleError_call_of_gt hr hret, Option.some_or])
    · have heq := eq_true_of_flagRead hf
      exact raises_unwritten hcfg hr hw (flagError_of_flagRead_ok hf).1 (by rw [ruleError, if_pos heq, hop])
        (if_pos heq)
    · have heq := eq_ne_true_of_flagRead hf
      exact raises_unwritten hcfg hr hw (flagError_of_flagRead_ok hf).1 (by rw [ruleError, if_neg heq, hop])
        (if_neg heq)
  · refine execUnder_eq_exec (branchFlagError_of_flagRead hflag) fun herr => ?_
    refine unwrittenError_of_all_written fun b hb => ?_
    exact hwritten b (operandsRead_subset i s hb) _ (toNat_eq_operandReg_of_mem_operandsRead herr hb)
  · have hread : operandsRead (.jeq r) s = [] := if_neg (eq_ne_true_of_flagRead hf)
    exact execUnder_eq_exec (flagError_of_flagRead_ok hf).1 fun _ => by rw [hread, unwrittenError]
  · have hread : operandsRead (.jne r) s = [] := if_pos (eq_true_of_flagRead hf)
    exact execUnder_eq_exec (flagError_of_flagRead_ok hf).1 fun _ => by rw [hread, unwrittenError]

end Sys2Proof.Machine
end

section
/-! SUPPORT. Words written out from R81 and R83. -/

namespace Sys2Proof

/-- Settles O3: the decoder run on each word. -/
theorem specWordsDecode : Obligations.SpecWordsDecode := by
  unfold Obligations.SpecWordsDecode
  decide

end Sys2Proof
end
